-- ==== Sys2Proof/Word.lean ====
section
/-! DEFINITION. The word types of SYMFIFO: the fixed-width formats of 30_encoding.md R44 and the u8 and u16 of
00_scope.md R8. All quantities are unsigned. -/

namespace Sys2Proof

/-- `u8` of R8: a literal byte, a header byte. -/
abbrev Byte := BitVec 8

/-- `u16` of R8: a raw match length or a raw match distance. -/
abbrev HalfWord := BitVec 16

/-- Format C of 30_encoding.md R45: one command word of the Recorder command port, 35 bits. -/
abbrev CommandWord := BitVec 35

/-- Format H of 30_encoding.md R49: one request of the Header port, 2 bits. -/
abbrev HeaderRequest := BitVec 2

/-- Format T of 30_encoding.md R50: one token word, 18 bits. -/
abbrev TokenWord := BitVec 18

/-- Format Z of 30_encoding.md R54: the header output `hdr_o`, 16 bits. -/
abbrev HeaderWord := BitVec 16

/-- The cause code of 60_exceptions.md R73, 3 bits. -/
abbrev CauseCode := BitVec 3

end Sys2Proof
end

