-- ==== Sys2Proof/Syntax.lean ====
section
/-! DEFINITION. The instructions: one constructor per row of spec/opcode_table.json. Each operand has exactly the width of
its field, so every term of `Instr` is a well-formed instruction (30_encoding.md R47, R49). -/

namespace Sys2Proof

/-- The five commands of the Recorder command port and the one request of the Header port (30_encoding.md R46, R49). -/
inductive Instr where
  /-- WLIT `b`, write literal (40_recorder_writes.md R59). -/
  | wlit (b : Byte)
  /-- WLD `length, distance`, write length and distance (40_recorder_writes.md R60). -/
  | wld (length distance : HalfWord)
  /-- RST, block reset (41_recorder_control_read.md R62). -/
  | rst
  /-- SNAP, snapshot frequencies (41_recorder_control_read.md R63). -/
  | snap
  /-- DRAIN, drain tokens (41_recorder_control_read.md R64). -/
  | drain
  /-- HDR `level`, build header (42_header_builder.md R67). -/
  | hdr (level : HeaderRequest)
  deriving DecidableEq, Repr

end Sys2Proof
end

