-- ==== Sys2Proof/Config.lean ====
section
/-! DEFINITION. What one SYMFIFO instance fixes: the configuration record of 00_scope.md R5, as plain data, and the one
value the spec leaves open. -/

namespace Sys2Proof

/-- The configuration bit MODE of 00_scope.md R5: 0 selects the Plain Recorder, 1 the Statistical Recorder. -/
inductive Mode where
  /-- `MODE = 0`: buffers tokens only. -/
  | plain
  /-- `MODE = 1`: buffers tokens and counts code indices. -/
  | statistical
  deriving DecidableEq, Repr

/-- One row of a lookup table as 00_scope.md R7 prints it: the raw values `lo` to `hi`, both included, have the code index
`sym`. -/
structure CodeRow where
  lo  : HalfWord
  hi  : HalfWord
  sym : Nat
  deriving DecidableEq, Repr

/-- The configuration record of 00_scope.md R5. It is not state: no command changes it. The lookup functions `LenSym` and
`DistSym` are held as tables of rows (plain data); `Config.lenSym` and `Config.distSym` in Machine/Alphabet.lean are the
functions. DESIGN CHOICE, log 9. -/
structure Config where
  /-- `MODE`. -/
  mode : Mode
  /-- `DEPTH`: number of token words the token store holds. -/
  depth : Nat
  /-- `CNT_W`: width in bits of one frequency counter. -/
  cntW : Nat
  /-- `NUM_LITLEN_RAW`: allocated size of the literal/length table. -/
  numLitlenRaw : Nat
  /-- `NUM_LITLEN_LIVE`: live size of that table. -/
  numLitlenLive : Nat
  /-- `EOB_INDEX`: index of the end-of-block code. -/
  eobIndex : Nat
  /-- `NUM_DIST`: size of the distance table. -/
  numDist : Nat
  /-- The rows of `LenSym`. -/
  lenCodes : List CodeRow
  /-- The rows of `DistSym`. -/
  distCodes : List CodeRow
  /-- `CMF_CONST`: byte 0 of the header. -/
  cmfConst : Byte
  deriving DecidableEq, Repr

/-- FREE VALUE. What a counter of the given width holds after counting up from the given value when the sum does not fit
the width: "no overflow behaviour is defined" (92_eei_decisions.md D5). No state of a run meets it
(41_recorder_control_read.md R65 e). Arguments: the width `CNT_W`, the value before. DESIGN CHOICE, log 6. -/
opaque Config.counterPastWidth : Nat → Nat → Nat

end Sys2Proof
end

