-- ==== Sys2Proof/Machine/Alphabet.lean ====
section
/-! DEFINITION. The alphabet lookups of 00_scope.md R5, the reference configuration of R7, and the seeded tables of
10_state.md R17 and R18. -/

namespace Sys2Proof

/-- The code index of a raw value: the row that contains it, `none` when no row does. -/
def findCode : List CodeRow → HalfWord → Option Nat
  | [], _ => none
  | r :: rs, v => if r.lo ≤ v ∧ v ≤ r.hi then some r.sym else findCode rs v

/-- `LenSym` of 00_scope.md R5: the index in `LL_FREQ` of a raw match length, or `none`. -/
def Config.lenSym (c : Config) (length : HalfWord) : Option Nat := findCode c.lenCodes length

/-- `DistSym` of 00_scope.md R5: the index in `D_FREQ` of a raw match distance, or `none`. -/
def Config.distSym (c : Config) (distance : HalfWord) : Option Nat := findCode c.distCodes distance

/-- `Seeded_LL` of 10_state.md R17: 1 at `EOB_INDEX`, 0 at every other index. -/
def Config.seededLL (c : Config) : List Nat :=
  (List.range c.numLitlenRaw).map fun i => if i = c.eobIndex then 1 else 0

/-- `Seeded_D` of 10_state.md R18: 0 in every entry. -/
def Config.seededD (c : Config) : List Nat := List.replicate c.numDist 0

/-- The literal/length row of 00_scope.md R7's first table, columns 257 to 272. -/
def refLenCodesLow : List CodeRow :=
  [⟨3, 3, 257⟩, ⟨4, 4, 258⟩, ⟨5, 5, 259⟩, ⟨6, 6, 260⟩, ⟨7, 7, 261⟩, ⟨8, 8, 262⟩, ⟨9, 9, 263⟩, ⟨10, 10, 264⟩,
   ⟨11, 12, 265⟩, ⟨13, 14, 266⟩, ⟨15, 16, 267⟩, ⟨17, 18, 268⟩, ⟨19, 22, 269⟩, ⟨23, 26, 270⟩, ⟨27, 30, 271⟩, ⟨31, 34, 272⟩]

/-- 00_scope.md R7's first table, columns 273 to 285. -/
def refLenCodesHigh : List CodeRow :=
  [⟨35, 42, 273⟩, ⟨43, 50, 274⟩, ⟨51, 58, 275⟩, ⟨59, 66, 276⟩, ⟨67, 82, 277⟩, ⟨83, 98, 278⟩, ⟨99, 114, 279⟩,
   ⟨115, 130, 280⟩, ⟨131, 162, 281⟩, ⟨163, 194, 282⟩, ⟨195, 226, 283⟩, ⟨227, 257, 284⟩, ⟨258, 258, 285⟩]

/-- 00_scope.md R7's second table, symbols 0 to 14. -/
def refDistCodesLow : List CodeRow :=
  [⟨1, 1, 0⟩, ⟨2, 2, 1⟩, ⟨3, 3, 2⟩, ⟨4, 4, 3⟩, ⟨5, 6, 4⟩, ⟨7, 8, 5⟩, ⟨9, 12, 6⟩, ⟨13, 16, 7⟩, ⟨17, 24, 8⟩, ⟨25, 32, 9⟩,
   ⟨33, 48, 10⟩, ⟨49, 64, 11⟩, ⟨65, 96, 12⟩, ⟨97, 128, 13⟩, ⟨129, 192, 14⟩]

/-- 00_scope.md R7's second table, symbols 15 to 29. -/
def refDistCodesHigh : List CodeRow :=
  [⟨193, 256, 15⟩, ⟨257, 384, 16⟩, ⟨385, 512, 17⟩, ⟨513, 768, 18⟩, ⟨769, 1024, 19⟩, ⟨1025, 1536, 20⟩, ⟨1537, 2048, 21⟩,
   ⟨2049, 3072, 22⟩, ⟨3073, 4096, 23⟩, ⟨4097, 6144, 24⟩, ⟨6145, 8192, 25⟩, ⟨8193, 12288, 26⟩, ⟨12289, 16384, 27⟩,
   ⟨16385, 24576, 28⟩, ⟨24577, 32768, 29⟩]

/-- The reference configuration `REF` of 00_scope.md R7; `MODE` and `DEPTH` are named by each use. Its alphabet is the
spec's own general knowledge of RFC 1951 (93_implementation_defined.md G1). PRESUMED, log 16. -/
def Config.ref (mode : Mode) (depth : Nat) : Config :=
  { mode := mode
    depth := depth
    cntW := 16
    numLitlenRaw := 288
    numLitlenLive := 286
    eobIndex := 256
    numDist := 30
    lenCodes := refLenCodesLow ++ refLenCodesHigh
    distCodes := refDistCodesLow ++ refDistCodesHigh
    cmfConst := 0x78 }

/-- The configuration of `State.reset`: `REF` with `MODE = 1` and `DEPTH = 8`, the values most vectors of
95_test_vectors.md name. DESIGN CHOICE, log 2. -/
def Config.atReset : Config := Config.ref .statistical 8

end Sys2Proof
end

