-- ==== Sys2Proof/WellFormed.lean ====
section
/-! DEFINITION. What a well-formed configuration is (00_scope.md R6), and the text lines of 30_encoding.md R57 with the
ranges of their operands. An `Instr` needs no check: its operands have exactly the widths of their fields, so an
out-of-range operand is not representable (30_encoding.md R49). -/

namespace Sys2Proof

/-- Lookup rows in their one canonical form: every row non-empty, and each row above the row before it. Every function from
u16 to an index or `none` has such a table. DESIGN CHOICE, log 9. -/
def rowsCanonical : List CodeRow → Bool
  | [] => true
  | [r] => decide (r.lo ≤ r.hi)
  | r :: r' :: rs => decide (r.lo ≤ r.hi) && decide (r.hi < r'.lo) && rowsCanonical (r' :: rs)

/-- R6 (a): the live size is the raw size less two, and holds 258 codes or more. -/
def Config.sizesOk (c : Config) : Bool :=
  decide (c.numLitlenLive = c.numLitlenRaw - 2) && decide (258 ≤ c.numLitlenLive)

/-- R6 (b): the end-of-block index lies above every literal and below the live size. -/
def Config.eobOk (c : Config) : Bool := decide (256 ≤ c.eobIndex) && decide (c.eobIndex < c.numLitlenLive)

/-- R6 (c): every length code is an index from 256 up, live, and not the end-of-block index. -/
def Config.lenCodesOk (c : Config) : Bool :=
  rowsCanonical c.lenCodes &&
    c.lenCodes.all fun r => decide (256 ≤ r.sym) && decide (r.sym < c.numLitlenLive) && decide (r.sym ≠ c.eobIndex)

/-- R6 (d): every distance code is an index below `NUM_DIST`. -/
def Config.distCodesOk (c : Config) : Bool :=
  rowsCanonical c.distCodes && c.distCodes.all fun r => decide (r.sym < c.numDist)

/-- R6 (e): length 258 and distance 1 have codes, distance 0 has none, and some minimum match length is at least 1, which
is to say that length 0 has no code (`Laws.minLen_exists_iff`). -/
def Config.rangesOk (c : Config) : Bool :=
  (c.lenSym 258).isSome && (c.distSym 1).isSome && (c.distSym 0).isNone && (c.lenSym 0).isNone

/-- R6 (f): at least two entries, and no more than one counter can count. -/
def Config.depthOk (c : Config) : Bool := decide (2 ≤ c.depth) && decide (c.depth ≤ 2 ^ c.cntW - 1)

/-- R6 (g): the header's first byte is `0x78`. -/
def Config.cmfOk (c : Config) : Bool := decide (c.cmfConst = 0x78)

/-- A well-formed configuration, 00_scope.md R6. -/
def Config.wf (c : Config) : Bool :=
  c.sizesOk && c.eobOk && c.lenCodesOk && c.distCodesOk && c.rangesOk && c.depthOk && c.cmfOk

/-- The four level names of 42_header_builder.md R70. -/
inductive Level where
  | fastest
  | fast
  | default
  | maximum
  deriving DecidableEq, Repr

/-- One line of the text form of 30_encoding.md R57, its numbers already read. -/
inductive Line where
  /-- `WLIT b` -/
  | wlit (b : Nat)
  /-- `WLD length, distance` -/
  | wld (length distance : Nat)
  /-- `RST` -/
  | rst
  /-- `SNAP` -/
  | snap
  /-- `DRAIN` -/
  | drain
  /-- `HDR level` with a number -/
  | hdr (level : Nat)
  /-- `HDR level` with a name -/
  | hdrNamed (level : Level)
  /-- `.cmd 0x...`, a raw command word -/
  | cmd (word : Nat)
  deriving DecidableEq, Repr

/-- The operand ranges of 30_encoding.md R57. -/
def Line.wf : Line → Bool
  | .wlit b => decide (b ≤ 255)
  | .wld length distance => decide (length ≤ 65535) && decide (distance ≤ 65535)
  | .rst => true
  | .snap => true
  | .drain => true
  | .hdr level => decide (level ≤ 3)
  | .hdrNamed _ => true
  | .cmd word => decide (word < 2 ^ 35)

end Sys2Proof
end

