-- ==== Sys2Proof/Decode.lean ====
section
/-! DEFINITION. The decoders of the two ports, total on every word and rejecting by name (30_encoding.md R45 to R49), then
the encoder written from the same tables, the command table of R47 and the text form of R57. -/

namespace Sys2Proof

/-- A word on one of the two ports. The ports are separate (00_scope.md R2, 92_eei_decisions.md D2). -/
inductive PortWord where
  /-- A word on the Recorder command port. -/
  | command (w : CommandWord)
  /-- A request on the Header port. -/
  | header (level : HeaderRequest)
  deriving DecidableEq, Repr

/-- Why a command word is illegal as a word (30_encoding.md R48 a, b). The third case of R48, SNAP in Plain mode, depends on
the configuration and is decided in `execSnap`. -/
inductive Illegal where
  /-- R48 (a): `op` is 0, 6 or 7. -/
  | reservedOp
  /-- R48 (b): `op` names a command and a reserved bit is 1. -/
  | reservedBit
  deriving DecidableEq, Repr

/-- `op`, bits 34:32 (R45). -/
def opField (w : CommandWord) : BitVec 3 := w.extractLsb' 32 3

/-- `A`, bits 31:16 (R45). -/
def aField (w : CommandWord) : HalfWord := w.extractLsb' 16 16

/-- `B`, bits 15:0 (R45). -/
def bField (w : CommandWord) : HalfWord := w.extractLsb' 0 16

/-- `B[15:8]` (R47). -/
def bHighField (w : CommandWord) : Byte := w.extractLsb' 8 8

/-- `B[7:0]` (R47), the literal byte of WLIT. -/
def bLowField (w : CommandWord) : Byte := w.extractLsb' 0 8

/-- The command whose operand bits must all be 0 (R47: RST, SNAP, DRAIN). -/
def decodeBare (i : Instr) (w : CommandWord) : Except Illegal Instr :=
  if aField w = 0 ∧ bField w = 0 then .ok i else .error .reservedBit

/-- The command word's decoder: R46 for `op`, R47 for the operands and the reserved bits. -/
def decodeCommand (w : CommandWord) : Except Illegal Instr :=
  if opField w = 0b001 then
    if aField w = 0 ∧ bHighField w = 0 then .ok (.wlit (bLowField w)) else .error .reservedBit
  else if opField w = 0b010 then .ok (.wld (aField w) (bField w))
  else if opField w = 0b011 then decodeBare .rst w
  else if opField w = 0b100 then decodeBare .snap w
  else if opField w = 0b101 then decodeBare .drain w
  else .error .reservedOp

/-- The Header port has one operation and all four values are legal (R49). -/
def decodeRequest (level : HeaderRequest) : Instr := .hdr level

/-- The decoder of both ports. -/
def decode : PortWord → Except Illegal Instr
  | .command w => decodeCommand w
  | .header level => .ok (decodeRequest level)

/-- Format C put together: `op * 2^32 + A * 2^16 + B` (R45). -/
def commandWord (op : BitVec 3) (a b : HalfWord) : CommandWord := (op ++ a) ++ b

/-- The encoder, from R46, R47 and R49. -/
def encode : Instr → PortWord
  | .wlit b => .command (commandWord 0b001 0 (b.setWidth 16))
  | .wld length distance => .command (commandWord 0b010 length distance)
  | .rst => .command (commandWord 0b011 0 0)
  | .snap => .command (commandWord 0b100 0 0)
  | .drain => .command (commandWord 0b101 0 0)
  | .hdr level => .header level

/-- One row of R47's table: `match` and `mask` as it prints them. -/
structure CommandRow where
  mnemonic : String
  pattern  : CommandWord
  mask     : CommandWord
  deriving DecidableEq, Repr

/-- A word selects the command of a row when `(w AND mask) = match` (R47). -/
def CommandRow.selects (r : CommandRow) (w : CommandWord) : Bool := decide (w &&& r.mask = r.pattern)

/-- The five rows of R47. -/
def commandTable : List CommandRow :=
  [⟨"WLIT", 0x100000000, 0x7FFFFFF00⟩, ⟨"WLD", 0x200000000, 0x700000000⟩, ⟨"RST", 0x300000000, 0x7FFFFFFFF⟩,
   ⟨"SNAP", 0x400000000, 0x7FFFFFFFF⟩, ⟨"DRAIN", 0x500000000, 0x7FFFFFFFF⟩]

/-- The mnemonic of an instruction (R46, R49). -/
def Instr.mnemonic : Instr → String
  | .wlit _ => "WLIT"
  | .wld _ _ => "WLD"
  | .rst => "RST"
  | .snap => "SNAP"
  | .drain => "DRAIN"
  | .hdr _ => "HDR"

/-- The number of a level name (42_header_builder.md R70). -/
def Level.ordinal : Level → HeaderRequest
  | .fastest => 0
  | .fast => 1
  | .default => 2
  | .maximum => 3

/-- The word a text line stands for (30_encoding.md R57); `none` when an operand is out of its range. -/
def Line.assemble (l : Line) : Option PortWord :=
  if l.wf then
    match l with
    | .wlit b => some (encode (.wlit (BitVec.ofNat 8 b)))
    | .wld length distance => some (encode (.wld (BitVec.ofNat 16 length) (BitVec.ofNat 16 distance)))
    | .rst => some (encode .rst)
    | .snap => some (encode .snap)
    | .drain => some (encode .drain)
    | .hdr level => some (.header (BitVec.ofNat 2 level))
    | .hdrNamed level => some (.header level.ordinal)
    | .cmd word => some (.command (BitVec.ofNat 35 word))
  else none

/-- The port word of a row's bits: a row of at most one byte is a Header request (2 bits), a longer one a command word
(35 bits); `none` where a bit is set that the port does not have. DESIGN CHOICE, log 13. -/
def portWordOf (nbits w : Nat) : Option PortWord :=
  if nbits ≤ 8 then
    if w < 2 ^ 2 then some (.header (BitVec.ofNat 2 w)) else none
  else if w < 2 ^ 35 then some (.command (BitVec.ofNat 35 w)) else none

/-- The instruction the decoder reads from a table row's bits `w`; `nbits` is how many bits the table gives the row. -/
def decodeTableWord (nbits w : Nat) : Option Instr :=
  match portWordOf nbits w with
  | none => none
  | some p =>
    match decode p with
    | .ok i => some i
    | .error _ => none

end Sys2Proof
end

