-- ==== Sys2Proof/Machine/State.lean ====
section
/-! DEFINITION. The state of one SYMFIFO instance as plain data (10_state.md R13 to R26) and, apart from it, what the spec says
is no state: the configuration, the host's events, the unit's answers. The reasons a step can stop, and the state after
hardware reset (R25). -/

namespace Sys2Proof.Machine

/-- The named causes of 60_exceptions.md R73. `CAUSE` itself is the 3-bit register; `Cause.code` (Ops.lean) is the code. -/
inductive Cause where
  /-- `LenSym(length) = none` -/
  | badLength
  /-- the length is valid and `DistSym(distance) = none` -/
  | badDistance
  /-- the write does not fit the token store -/
  | overflow
  /-- the command word is illegal -/
  | badCmd
  deriving DecidableEq, Repr

/-- The payload of a response (30_encoding.md R53), given by value (20_memory.md R43): DRAIN fills `tokens`, SNAP fills
`ll` and `dd`, every other response leaves all three empty. -/
structure Payload where
  tokens : List TokenWord := []
  ll     : List Nat := []
  dd     : List Nat := []
  deriving DecidableEq, Repr

/-- Format R, the response to one command: the 4-bit head and the payload (30_encoding.md R53). -/
structure Response where
  ok      : Bool
  cause   : CauseCode
  payload : Payload
  deriving DecidableEq, Repr

/-- What the host does to the unit (70_reset_and_hazards.md R96, R97). -/
inductive Event where
  /-- A word is presented on one of the two ports. -/
  | present (p : PortWord)
  /-- Hardware reset (R87), which samples `MODE` and abandons, without response, the command in progress if there is one.
  That it samples nothing else is DEDUCED, log 10. -/
  | hardwareReset (mode : Mode) (abandoned : Option CommandWord)
  deriving DecidableEq, Repr

/-- The storage spaces of 20_memory.md R27 that hold counters. -/
inductive Space where
  | llFreq
  | dFreq
  deriving DecidableEq, Repr

/-- The complete architectural state of one instance (10_state.md R13), all of it in the Recorder unit (R24), and nothing
beside it: no read pointer, no cache or buffer, no reservation, no pending event (R26). -/
structure Recorder where
  /-- `TOK` and `TOK_COUNT` together: the buffered token words, `TOK[0]` first (10_state.md R15, log 5). -/
  tok : List TokenWord
  /-- `LL_FREQ` (10_state.md R17), index 0 first. -/
  llFreq : List Nat
  /-- `D_FREQ` (10_state.md R18), index 0 first. -/
  dFreq : List Nat
  /-- `FAULT` (10_state.md R19). -/
  fault : Bool
  /-- `CAUSE` (10_state.md R19). -/
  cause : CauseCode
  deriving DecidableEq, Repr

/-- What stands around the machine and is no state of it (10_state.md R26): the parameters of its step function, the
sequence the host supplies, and the outputs of steps. No rule of a command reads the last three (log 1, 3, 4). -/
structure Surroundings where
  /-- The configuration (00_scope.md R5), the parameter of every step; only the sampling of `MODE` at hardware reset changes
  it. -/
  cfg : Config
  /-- The host's events still to come, the next one first. -/
  inputs : List Event
  /-- The responses of the Recorder unit so far, oldest first. -/
  responses : List Response
  /-- The outputs `hdr_o` of the Header unit so far, oldest first. -/
  headers : List HeaderWord
  deriving DecidableEq, Repr

/-- What the host's form of a step carries from one step to the next: the machine's own state, which is `Recorder`, and what
stands around it. The rules of the commands are functions of configuration, `Recorder` and command word (Unit.lean). -/
structure State extends Recorder, Surroundings where
  deriving DecidableEq, Repr

/-- Why the machine stops. The faults of 60_exceptions.md are NOT here: a step that raises one answers a next state with
`FAULT` set (00_scope.md R10, 60_exceptions.md R79). -/
inductive Fault where
  /-- Raised by a counter update or by SNAP when the table's storage lacks the entry at `index`, an entry the spec says
  exists. Only a state whose tables do not have the configured sizes raises it; no run reaches one. SAFE, log 7. -/
  | noSuchEntry (space : Space) (index : Nat)
  deriving DecidableEq, Repr

/-- Why a step has no meaning. -/
inductive Refusal where
  /-- Raised by an arm of `exec` for an instruction that has no meaning yet. SAFE. -/
  | notModelled (mnemonic : String)
  /-- Raised by every command, every Header request and hardware reset when the configuration is ill formed: "A model
  refuses an ill-formed configuration" (00_scope.md R6). SAFE, log 8. -/
  | illFormedConfig
  deriving DecidableEq, Repr

/-- The outcome of one instruction or one step. -/
abbrev Result := Host.Outcome State Fault Refusal

/-- The architectural state after hardware reset under the configuration `c` (10_state.md R25, 70_reset_and_hazards.md
R87). -/
def Recorder.initial (c : Config) : Recorder :=
  { tok := []
    llFreq := c.seededLL
    dFreq := c.seededD
    fault := false
    cause := 0 }

/-- The instance `c` after hardware reset, before any event of the host. -/
def State.initial (c : Config) : State :=
  { Recorder.initial c with
    cfg := c
    inputs := []
    responses := []
    headers := [] }

/-- The machine right after reset: `State.initial` of the configuration log 2 names. -/
def State.reset : State := State.initial Config.atReset

end Sys2Proof.Machine
end

