-- ==== Sys2Proof/Machine/Flags.lean ====
section
/-! DEFINITION. The derived flags and the status port (10_state.md R20, R21): projections of the state. There are no
condition codes and no flag that an operation reads as an operand (R20). -/

namespace Sys2Proof.Machine

/-- `TOK_COUNT`: the number of buffered tokens and the append pointer (10_state.md R16). -/
def Recorder.tokCount (r : Recorder) : Nat := r.tok.length

/-- `FREE = DEPTH - TOK_COUNT` (R20). -/
def State.free (s : State) : Nat := s.cfg.depth - s.tokCount

/-- `EMPTY = (TOK_COUNT = 0)` (R20). -/
def State.empty (s : State) : Bool := decide (s.tokCount = 0)

/-- `FULL = (TOK_COUNT = DEPTH)` (R20). -/
def State.full (s : State) : Bool := decide (s.tokCount = s.cfg.depth)

/-- `MODE` as the bit the port shows: 0 Plain, 1 Statistical (10_state.md R14). -/
def modeBit : Mode → BitVec 1
  | .plain => 0
  | .statistical => 1

/-- The width of `TOK_COUNT`, `ceil(log2(DEPTH+1))` bits (10_state.md R13): the bits needed to write `DEPTH`. -/
def countWidth (depth : Nat) : Nat := Nat.log2 depth + 1

/-- The continuously driven outputs of 10_state.md R21; `fault_o` is also the level output of 60_exceptions.md R83. -/
structure StatusPort where
  mode  : BitVec 1
  fault : Bool
  cause : CauseCode
  count : Nat
  empty : Bool
  full  : Bool
  deriving DecidableEq, Repr

/-- The status port shows the state without a command and without side effect (R21). -/
def State.statusPort (s : State) : StatusPort :=
  { mode := modeBit s.cfg.mode
    fault := s.fault
    cause := s.cause
    count := s.tokCount
    empty := s.empty
    full := s.full }

end Sys2Proof.Machine
end

