-- ==== Sys2Proof/Machine/Operands.lean ====
section
/-! DEFINITION. Operand assembly (30_encoding.md R55) and the token words of format T (R50, R51). -/

namespace Sys2Proof.Machine

/-- Format T put together: `tag` in bits 17:16, `val` in bits 15:0 (R50). -/
def tokenWord (tag : BitVec 2) (val : HalfWord) : TokenWord := tag ++ val

/-- `Lit(b)`: tag 0, the byte zero-extended (R50). -/
def litWord (b : Byte) : TokenWord := tokenWord 0b00 (b.setWidth 16)

/-- `Len(l)`: tag 1, the raw match length (R50). -/
def lenWord (length : HalfWord) : TokenWord := tokenWord 0b01 length

/-- `Dist(d)`: tag 2, the raw match distance (R50). -/
def distWord (distance : HalfWord) : TokenWord := tokenWord 0b10 distance

/-- The document's tagged value behind a token word (R50). -/
inductive Token where
  /-- `Literal(byte)` -/
  | literal (b : Byte)
  /-- `Length(u16)` -/
  | length (l : HalfWord)
  /-- `Distance(u16)` -/
  | distance (d : HalfWord)
  deriving DecidableEq, Repr

/-- The word of a token (R50). -/
def tokenOf : Token → TokenWord
  | .literal b => litWord b
  | .length l => lenWord l
  | .distance d => distWord d

/-- A consumer's reading of a token word. It refuses the reserved tag and a Literal with a non-zero `val[15:8]`
(R51, 93_implementation_defined.md U12). -/
def readToken (w : TokenWord) : Option Token :=
  let tag := w.extractLsb' 16 2
  let val := w.extractLsb' 0 16
  if tag = 0b00 then
    if val.extractLsb' 8 8 = (0 : Byte) then some (.literal (val.extractLsb' 0 8)) else none
  else if tag = 0b01 then some (.length val)
  else if tag = 0b10 then some (.distance val)
  else none

/-- WLIT's index into `LL_FREQ`: the byte, unsigned, unscaled (R55). -/
def literalIndex (b : Byte) : Nat := b.toNat

/-- HDR's `level` placed in FLG bits 7:6: `level * 64` (R55). -/
def levelBits (level : HeaderRequest) : Byte := level.setWidth 8 <<< 6

end Sys2Proof.Machine
end

