-- ==== Sys2Proof/Machine/Ops.lean ====
section
/-! DEFINITION. The named operations every rule is built from, functions of the configuration and the Recorder unit's state:
responses, fault entry, the refusal in the fault state, the common prologue, the counters, the token store. Then the machine
in its surroundings: delivering a response, and hardware reset, which is the only way back from the fault state. -/

namespace Sys2Proof.Machine

/-- The cause codes of 60_exceptions.md R73. Code 0 is `NONE`; codes 5 to 7 are never produced. -/
def Cause.code : Cause → CauseCode
  | .badLength => 1
  | .badDistance => 2
  | .overflow => 3
  | .badCmd => 4

/-- `respond OK(p)`: head `{1, 0b000}` (30_encoding.md R53). -/
def okResponse (p : Payload) : Response := { ok := true, cause := 0, payload := p }

/-- `respond ERR(c)`: head `{0, c}`, empty payload (30_encoding.md R53). -/
def errResponse (c : CauseCode) : Response := { ok := false, cause := c, payload := {} }

/-- The outcome of one command word: the next state of the Recorder unit and the response, which is an output
(00_scope.md R10, 10_state.md R26); or the stop of log 7. -/
abbrev CommandResult := Except Fault (Recorder × Response)

/-- `FAULT <- 1`, `CAUSE <- c` (60_exceptions.md R79). -/
def Recorder.setFault (r : Recorder) (c : CauseCode) : Recorder := { r with fault := true, cause := c }

/-- Token words are stored at the append pointer, which moves past them (10_state.md R16). -/
def Recorder.append (r : Recorder) (ws : List TokenWord) : Recorder := { r with tok := r.tok ++ ws }

/-- Both frequency tables are written. -/
def Recorder.setTables (r : Recorder) (ll d : List Nat) : Recorder := { r with llFreq := ll, dFreq := d }

/-- The block is emptied and the tables are seeded: RST's effect on the state (41_recorder_control_read.md R62). -/
def Recorder.seed (r : Recorder) (c : Config) : Recorder :=
  { r with tok := [], llFreq := c.seededLL, dFreq := c.seededD }

/-- `raise X` (60_exceptions.md R79): `FAULT <- 1`, `CAUSE <- code(X)`, `respond ERR(code(X))`, no other change. -/
def raise (x : Cause) (r : Recorder) : CommandResult := .ok (r.setFault x.code, errResponse x.code)

/-- A command in the fault state is refused: `respond ERR(CAUSE)`, no state change (60_exceptions.md R80). -/
def refuseFaulted (r : Recorder) : CommandResult := .ok (r, errResponse r.cause)

/-- The prologue of every command (40_recorder_writes.md R58 step 1), then the command's own rule. -/
def prologue (r : Recorder) (body : CommandResult) : CommandResult := if r.fault then refuseFaulted r else body

/-- An illegal command word (40_recorder_writes.md R58 step 2, 60_exceptions.md R77). -/
def illegalRule (_ : Config) (r : Recorder) : CommandResult := prologue r (raise .badCmd r)

/-- A counter counts up by one. The sum of a full counter does not fit its width and the spec states no result there: a
free value of that width (log 6). -/
def countUp (cntW v : Nat) : Nat :=
  if v + 1 < 2 ^ cntW then v + 1 else Config.counterPastWidth cntW v % 2 ^ cntW

/-- Read-modify-write of one counter (20_memory.md R28, R33), or of none. An entry the storage does not have stops the
machine (log 7). -/
def countIn (cntW : Nat) (space : Space) (table : List Nat) : Option Nat → Except Fault (List Nat)
  | none => .ok table
  | some i =>
    match table[i]? with
    | some v => .ok (table.set i (countUp cntW v))
    | none => .error (.noSuchEntry space i)

/-- The entries `0 .. n-1` of a table, read whole (20_memory.md R28). -/
def readFirst (space : Space) (table : List Nat) (n : Nat) : Except Fault (List Nat) :=
  if n ≤ table.length then .ok (table.take n) else .error (.noSuchEntry space table.length)

/-- A write that fits: the token words are appended, in Statistical mode the counters `ll` of `LL_FREQ` and `d` of `D_FREQ`
count up, and the command answers OK (40_recorder_writes.md R59, R60). All effects together (00_scope.md R10). -/
def recordTokens (c : Config) (r : Recorder) (ws : List TokenWord) (ll d : Option Nat) : CommandResult :=
  match c.mode with
  | .plain => .ok (r.append ws, okResponse {})
  | .statistical =>
    match countIn c.cntW .llFreq r.llFreq ll with
    | .error e => .error e
    | .ok llFreq =>
      match countIn c.cntW .dFreq r.dFreq d with
      | .error e => .error e
      | .ok dFreq => .ok ((r.append ws).setTables llFreq dFreq, okResponse {})

/-! ### The machine in its surroundings -/

/-- An ill-formed configuration is refused (00_scope.md R6, log 8). -/
def whenWellFormed (s : State) (body : Result) : Result :=
  if s.cfg.wf then body else .refused .illFormedConfig

/-- The Recorder unit has taken a step: its state is `r`, and the host has been given `p` (30_encoding.md R53). -/
def State.answer (s : State) (r : Recorder) (p : Response) : State :=
  { s with toRecorder := r, responses := s.responses ++ [p] }

/-- The Header unit has answered (30_encoding.md R54). -/
def State.answerHeader (s : State) (h : HeaderWord) : State := { s with headers := s.headers ++ [h] }

/-- The outcome of a command, delivered to the host. -/
def deliver (s : State) : CommandResult → Result
  | .ok (r, p) => .next (s.answer r p)
  | .error e => .fault e

/-- The rule of a command, a function of the configuration and the Recorder unit's state, is carried out. -/
def recorderCommand (s : State) (rule : Config → Recorder → CommandResult) : Result :=
  whenWellFormed s (deliver s (rule s.cfg s.toRecorder))

/-- An illegal command word in its surroundings. -/
def illegalCommand (s : State) : Result := recorderCommand s illegalRule

/-- Hardware reset's effect (70_reset_and_hazards.md R87): `MODE` is sampled, the store is empty, the tables are seeded,
`FAULT` and `CAUSE` are 0. What the host has already been given stays with the host (20_memory.md R43). -/
def State.afterHardwareReset (s : State) (mode : Mode) : State :=
  { s with
    toRecorder := Recorder.initial s.cfg
    cfg := { s.cfg with mode := mode } }

/-- Hardware reset as an event: unconditional and total, accepted in the fault state, no response (R87, R88). -/
def hardwareReset (s : State) (mode : Mode) : Result := whenWellFormed s (.next (s.afterHardwareReset mode))

end Sys2Proof.Machine
end

