-- ==== Sys2Proof/Machine/Header.lean ====
section
/-! DEFINITION. The Header unit (42_header_builder.md): the mod-31 checksum and HDR. -/

namespace Sys2Proof.Machine

/-- FLG with bits 4:0 cleared (42_header_builder.md R66). -/
def flgWithoutChecksum (flgIn : Byte) : Byte := flgIn &&& 0xE0

/-- The checksum value `31 - ((cmf * 256 + flg0) mod 31)`, 1 to 31 (R66). -/
def checkValue (cmf flg0 : Byte) : Nat := 31 - (cmf.toNat * 256 + flg0.toNat) % 31

/-- `FCheck(cmf, flg_in)` of R66. -/
def fcheck (cmf flgIn : Byte) : Byte :=
  flgWithoutChecksum flgIn + BitVec.ofNat 8 (checkValue cmf (flgWithoutChecksum flgIn))

/-- `hdr_o`: byte 0 in bits 15:8, byte 1 in bits 7:0 (20_memory.md R29). -/
def headerWord (byte0 byte1 : Byte) : HeaderWord := byte0 ++ byte1

/-- Byte 0 (CMF) of a header word. -/
def headerByte0 (h : HeaderWord) : Byte := h.extractLsb' 8 8

/-- Byte 1 (FLG) of a header word. -/
def headerByte1 (h : HeaderWord) : Byte := h.extractLsb' 0 8

/-- The header HDR builds from the configured CMF and a level (42_header_builder.md R67). -/
def buildHeader (cmf : Byte) (level : HeaderRequest) : HeaderWord := headerWord cmf (fcheck cmf (levelBits level))

/-- HDR, build header (42_header_builder.md R67): independent of `MODE`, of `FAULT` and of every Recorder command. -/
def execHdr (level : HeaderRequest) (s : State) : Result :=
  whenWellFormed s (.next (s.answerHeader (buildHeader s.cfg.cmfConst level)))

end Sys2Proof.Machine
end

