-- ==== Sys2Proof/Machine/RecorderControl.lean ====
section
/-! DEFINITION. The Recorder's control and read commands (41_recorder_control_read.md). -/

namespace Sys2Proof.Machine

/-- RST, block reset (41_recorder_control_read.md R62). `FAULT` and `CAUSE` are not written. -/
def rstRule (c : Config) (r : Recorder) : CommandResult := prologue r (.ok (r.seed c, okResponse {}))

/-- SNAP, snapshot frequencies (41_recorder_control_read.md R63): the live entries of `LL_FREQ` and all of `D_FREQ`, by
value. In Plain mode the word is illegal (30_encoding.md R48 c). -/
def snapRule (c : Config) (r : Recorder) : CommandResult :=
  prologue r
    (match c.mode with
     | .plain => raise .badCmd r
     | .statistical =>
       match readFirst .llFreq r.llFreq c.numLitlenLive with
       | .error e => .error e
       | .ok ll =>
         match readFirst .dFreq r.dFreq c.numDist with
         | .error e => .error e
         | .ok dd => .ok (r, okResponse { ll := ll, dd := dd }))

/-- DRAIN, drain tokens (41_recorder_control_read.md R64): the buffered tokens, oldest first; nothing is removed. -/
def drainRule (_ : Config) (r : Recorder) : CommandResult := prologue r (.ok (r, okResponse { tokens := r.tok }))

/-- The meaning of RST. -/
def execRst (s : State) : Result := recorderCommand s rstRule

/-- The meaning of SNAP. -/
def execSnap (s : State) : Result := recorderCommand s snapRule

/-- The meaning of DRAIN. -/
def execDrain (s : State) : Result := recorderCommand s drainRule

end Sys2Proof.Machine
end

