-- ==== Sys2Proof/Machine/RecorderWrites.lean ====
section
/-! DEFINITION. The Recorder's write commands (40_recorder_writes.md). -/

namespace Sys2Proof.Machine

/-- WLIT, write literal (40_recorder_writes.md R59). -/
def wlitRule (b : Byte) (c : Config) (r : Recorder) : CommandResult :=
  prologue r
    (if r.tokCount + 1 > c.depth then raise .overflow r
     else recordTokens c r [litWord b] (some (literalIndex b)) none)

/-- WLD, write length and distance (40_recorder_writes.md R60). The three checks are made in both modes, in this order, all
before anything is written. -/
def wldRule (length distance : HalfWord) (c : Config) (r : Recorder) : CommandResult :=
  prologue r
    (match c.lenSym length with
     | none => raise .badLength r
     | some ls =>
       match c.distSym distance with
       | none => raise .badDistance r
       | some ds =>
         if r.tokCount + 2 > c.depth then raise .overflow r
         else recordTokens c r [lenWord length, distWord distance] (some ls) (some ds))

/-- The meaning of WLIT. -/
def execWlit (b : Byte) (s : State) : Result := recorderCommand s (wlitRule b)

/-- The meaning of WLD. -/
def execWld (length distance : HalfWord) (s : State) : Result := recorderCommand s (wldRule length distance)

end Sys2Proof.Machine
end

