-- ==== Sys2Proof/Machine/Dispatch.lean ====
section
/-! DEFINITION. The dispatch: one arm per constructor of `Instr` (40_recorder_writes.md R58 step 3, 30_encoding.md R49). -/

namespace Sys2Proof.Machine

def exec (i : Instr) (s : State) : Host.Outcome State Fault Refusal :=
  match i with
  | .wlit b => Sys2Proof.Machine.execWlit b s
  | .wld length distance => Sys2Proof.Machine.execWld length distance s
  | .rst => Sys2Proof.Machine.execRst s
  | .snap => Sys2Proof.Machine.execSnap s
  | .drain => Sys2Proof.Machine.execDrain s
  | .hdr level => Sys2Proof.Machine.execHdr level s

end Sys2Proof.Machine
end

