-- ==== Sys2Proof/Machine/Ports.lean ====
section
/-! DEFINITION. What the unit does with each event of the host: a word on a port, or hardware reset (00_scope.md R10,
40_recorder_writes.md R58, 70_reset_and_hazards.md R87). -/

namespace Sys2Proof.Machine

/-- A word on a port: the decoded instruction is executed; a command word that decodes to nothing is illegal. -/
def acceptWord (p : PortWord) (s : State) : Result :=
  match decode p with
  | .ok i => exec i s
  | .error _ => illegalCommand s

/-- The step function of the Recorder unit on one command word (40_recorder_writes.md R58). -/
def acceptCommand (w : CommandWord) (s : State) : Result := acceptWord (.command w) s

/-- One event of the host. The command in progress at a hardware reset is abandoned: the state after is the same whatever
it was (70_reset_and_hazards.md R87). -/
def acceptEvent (e : Event) (s : State) : Result :=
  match e with
  | .present p => acceptWord p s
  | .hardwareReset mode _ => hardwareReset s mode

/-- The next event is taken from the host and served; while the host does nothing, nothing changes (00_scope.md R10). -/
def serveNext (s : State) : Result :=
  match s.inputs with
  | [] => .next s
  | e :: rest => acceptEvent e { s with inputs := rest }

/-- A table row's word presented as the host's next event; a word that is no word of a port is not presented. -/
def presentTableWord (s : State) (nbits w : Nat) : State :=
  match portWordOf nbits w with
  | some p => { s with inputs := .present p :: s.inputs }
  | none => s

end Sys2Proof.Machine
end

