-- ==== Sys2Proof/Machine/Unit.lean ====
section
/-! DEFINITION. The Recorder unit as the spec has it: its step, a function of configuration, state and command word, with the
response as an output (00_scope.md R10, 10_state.md R26), and the fold of the step over a command sequence
(20_memory.md R38). -/

namespace Sys2Proof.Machine

/-- The rule a command word stands for (40_recorder_writes.md R58). No command word decodes to HDR. -/
def ruleOfWord (w : CommandWord) : Config → Recorder → CommandResult :=
  match decodeCommand w with
  | .ok (.wlit b) => wlitRule b
  | .ok (.wld length distance) => wldRule length distance
  | .ok .rst => rstRule
  | .ok .snap => snapRule
  | .ok .drain => drainRule
  | .ok (.hdr _) => illegalRule
  | .error _ => illegalRule

/-- One step of the Recorder unit (R10). -/
def recorderStep (c : Config) (r : Recorder) (w : CommandWord) : CommandResult := ruleOfWord w c r

/-- The state after a command sequence, the left fold of the step (20_memory.md R38), and the responses in order. -/
def recorderRun (c : Config) : Recorder → List CommandWord → Except Fault (Recorder × List Response)
  | r, [] => .ok (r, [])
  | r, w :: ws =>
    match recorderStep c r w with
    | .error e => .error e
    | .ok (r', p) =>
      match recorderRun c r' ws with
      | .error e => .error e
      | .ok (r'', ps) => .ok (r'', p :: ps)

end Sys2Proof.Machine
end

