-- ==== Sys2Proof/Safety.lean ====
section
/-! DEFINITION. The terms claims use: a good state, a state ready for a command, the invariants of 10_state.md R23, runs of
events (70_reset_and_hazards.md R96), and the relation between the two modes (40_recorder_writes.md R61). -/

namespace Sys2Proof.Machine

/-- A run is good when `FAULT = 0` at its end (70_reset_and_hazards.md R96). -/
abbrev State.Good (s : State) : Prop := s.fault = false

/-- The tables have the sizes of 20_memory.md R27. -/
abbrev State.Shaped (s : State) : Prop :=
  s.llFreq.length = s.cfg.numLitlenRaw ∧ s.dFreq.length = s.cfg.numDist

/-- A command executes by its own rule: the configuration is well formed (00_scope.md R6), the tables exist
(20_memory.md R27), and the unit is operating (10_state.md R19). -/
abbrev State.Ready (s : State) : Prop := s.cfg.wf = true ∧ s.Shaped ∧ s.Good

/-- No counter is full: one more fits its width. `State.Inv` gives it for every write that fits the store. -/
abbrev State.CountersFit (s : State) : Prop :=
  (∀ v ∈ s.llFreq, v + 1 < 2 ^ s.cfg.cntW) ∧ (∀ v ∈ s.dFreq, v + 1 < 2 ^ s.cfg.cntW)

/-- An illegal command word under a configuration: the three cases of 30_encoding.md R48. -/
abbrev IllegalWord (c : Config) (w : CommandWord) : Prop :=
  opField w = 0 ∨ opField w = 6 ∨ opField w = 7 ∨
  (opField w = 1 ∧ (aField w ≠ 0 ∨ bHighField w ≠ 0)) ∨
  ((opField w = 3 ∨ opField w = 4 ∨ opField w = 5) ∧ (aField w ≠ 0 ∨ bField w ≠ 0)) ∨
  (opField w = 4 ∧ c.mode = .plain)

/-- One unit of the token buffer: a literal, or a pair that is never split (10_state.md R23 b). -/
inductive Entry where
  | lit (b : Byte)
  | pair (length distance : HalfWord)
  deriving DecidableEq, Repr

/-- The token words of a unit, in order. -/
def Entry.words : Entry → List TokenWord
  | .lit b => [litWord b]
  | .pair length distance => [lenWord length, distWord distance]

/-- The unit's operands have codes under `c`. -/
def Entry.coded (c : Config) : Entry → Bool
  | .lit _ => true
  | .pair length distance => (c.lenSym length).isSome && (c.distSym distance).isSome

/-- The index of `LL_FREQ` that a buffered word counts at: a `Lit(b)` at `b`, a `Len(l)` at `LenSym(l)`. -/
def llIndexOf (c : Config) (w : TokenWord) : Option Nat :=
  match readToken w with
  | some (.literal b) => some (literalIndex b)
  | some (.length l) => c.lenSym l
  | some (.distance _) => none
  | none => none

/-- The index of `D_FREQ` that a buffered word counts at: a `Dist(d)` at `DistSym(d)`. -/
def distIndexOf (c : Config) (w : TokenWord) : Option Nat :=
  match readToken w with
  | some (.literal _) => none
  | some (.length _) => none
  | some (.distance d) => c.distSym d
  | none => none

/-- How many of the words count at index `i`. -/
def occurrences (index : TokenWord → Option Nat) (ws : List TokenWord) (i : Nat) : Nat :=
  (ws.filterMap index).count i

/-- The number `N` of `Lit` words (10_state.md R23 e). -/
def litCount (ws : List TokenWord) : Nat := ws.countP fun w => w.extractLsb' 16 2 == 0b00

/-- The number `M` of `Len` words (10_state.md R23 e). -/
def lenCount (ws : List TokenWord) : Nat := ws.countP fun w => w.extractLsb' 16 2 == 0b01

/-- The invariants of 10_state.md R23, over the state and not over a call history. -/
structure State.Inv (s : State) : Prop where
  /-- The configuration is well formed. -/
  config : s.cfg.wf = true
  /-- (a) -/
  count : s.tokCount ≤ s.cfg.depth
  /-- (b), with codes for every pair -/
  pairing : ∃ es : List Entry, s.tok = es.flatMap Entry.words ∧ ∀ e ∈ es, e.coded s.cfg = true
  /-- 20_memory.md R27 -/
  shaped : s.Shaped
  /-- (e), and with it (c) and (d), for `LL_FREQ` -/
  llCounts : s.cfg.mode = .statistical → ∀ i < s.cfg.numLitlenRaw,
    s.llFreq[i]? = some ((if i = s.cfg.eobIndex then 1 else 0) + occurrences (llIndexOf s.cfg) s.tok i)
  /-- (e) for `D_FREQ` -/
  dCounts : s.cfg.mode = .statistical → ∀ i < s.cfg.numDist,
    s.dFreq[i]? = some (occurrences (distIndexOf s.cfg) s.tok i)
  /-- (f) -/
  plainSeeded : s.cfg.mode = .plain → s.llFreq = s.cfg.seededLL ∧ s.dFreq = s.cfg.seededD
  /-- (g) -/
  causeIffFault : s.cause = 0 ↔ s.fault = false
  /-- Codes 5 to 7 are never produced (60_exceptions.md R73). -/
  causeNamed : s.cause.toNat ≤ 4

/-- The next state of an outcome, if it is one. -/
def nextState? : Result → Option State
  | .next s => some s
  | .fault _ => none
  | .refused _ => none

/-- The events served one after another, in the order given: the left fold of 20_memory.md R38. -/
def runEvents : List Event → State → Result
  | [], s => .next s
  | e :: es, s =>
    match acceptEvent e s with
    | .next s' => runEvents es s'
    | .fault r => .fault r
    | .refused r => .refused r

/-- A sequence of command words presented on the Recorder command port. -/
def commands (ws : List CommandWord) : List Event := ws.map fun w => .present (.command w)

/-- What one completed command word leaves of the tokens of the block (41_recorder_control_read.md R65 c). -/
def blockTokensStep (toks : List TokenWord) (w : CommandWord) : List TokenWord :=
  match decodeCommand w with
  | .ok (.wlit b) => toks ++ [litWord b]
  | .ok (.wld length distance) => toks ++ [lenWord length, distWord distance]
  | .ok .rst => []
  | .ok .snap => toks
  | .ok .drain => toks
  | .ok (.hdr _) => toks
  | .error _ => toks

/-- The tokens written by a sequence of completed commands since its last RST. -/
def blockTokens (ws : List CommandWord) : List TokenWord := ws.foldl blockTokensStep []

/-- Is the event a command word, which the Recorder unit answers? -/
def Event.isCommand : Event → Bool
  | .present (.command _) => true
  | .present (.header _) => false
  | .hardwareReset _ _ => false

/-- A Plain and a Statistical instance that agree in all but `MODE` and the tables (40_recorder_writes.md R61). -/
structure Twins (p t : State) : Prop where
  plain : p.cfg = { t.cfg with mode := .plain }
  statistical : t.cfg.mode = .statistical
  tok : p.tok = t.tok
  fault : p.fault = t.fault
  cause : p.cause = t.cause
  responses : p.responses = t.responses

/-- The states `s` and `t` agree on the architectural state of 10_state.md R13 and the configuration. -/
abbrev sameState (s t : State) : Prop := s.cfg = t.cfg ∧ s.toRecorder = t.toRecorder

end Sys2Proof.Machine
end

