-- ==== Sys2Proof/Certificates/Slice0/Obligations.lean ====
section
/-! DEFINITION. The statements for the provers. The architectural state is `Recorder`; a `State` carries beside it what is no
state of the machine. A response given is an element appended to `responses` and a header output one appended to `headers`
(log 4); a command word or a request comes from `inputs` (log 3); the configuration is `cfg`, so a statement about every
`State` is a statement about every architectural state under every configuration (log 1). -/

open Sys2Proof Sys2Proof.Machine

/-! ### Encodings -/

/-- 30_encoding.md R45 to R49: the decoder gives back every instruction the encoder writes, whatever its operands. -/
def Obligations.DecodeEncodeAgree : Prop := ∀ i : Instr, decode (encode i) = .ok i

/-- 30_encoding.md R47, R48 (D9): each instruction has one spelling. A word that decodes is the word its instruction
encodes to. -/
def Obligations.EncodeDecodeAgree : Prop := ∀ (p : PortWord) (i : Instr), decode p = .ok i → encode i = p

/-- 30_encoding.md R45: a command word is the number `op * 2^32 + A * 2^16 + B`, and A and B hold what the table says. -/
def Obligations.CommandWordNumber : Prop :=
  (∀ w : CommandWord, w.toNat = (opField w).toNat * 2 ^ 32 + (aField w).toNat * 2 ^ 16 + (bField w).toNat) ∧
  (∀ (i : Instr) (w : CommandWord), encode i = .command w →
    (aField w = match i with
      | .wld length _ => length
      | .wlit _ | .rst | .snap | .drain | .hdr _ => 0) ∧
    (bField w = match i with
      | .wld _ distance => distance
      | .wlit b => b.setWidth 16
      | .rst | .snap | .drain | .hdr _ => 0))

/-- 30_encoding.md R47: a word selects the command of a row when `(w AND mask) = match`, the rows are mutually exclusive, a
word that matches no row is illegal, and the operands are the fields the table names. -/
def Obligations.WordSelectsRow : Prop :=
  ∀ w : CommandWord,
    (∀ i, decodeCommand w = .ok i → ∃ r ∈ commandTable, w &&& r.mask = r.pattern ∧ r.mnemonic = i.mnemonic) ∧
    (∀ r ∈ commandTable, w &&& r.mask = r.pattern → ∃ i, decodeCommand w = .ok i ∧ i.mnemonic = r.mnemonic) ∧
    (∀ r ∈ commandTable, ∀ q ∈ commandTable, w &&& r.mask = r.pattern → w &&& q.mask = q.pattern → r = q) ∧
    (∀ b, decodeCommand w = .ok (.wlit b) → b = w.extractLsb' 0 8) ∧
    (∀ l d, decodeCommand w = .ok (.wld l d) → l = w.extractLsb' 16 16 ∧ d = w.extractLsb' 0 16)

/-- 95_test_vectors.md 2.2, 2.3, 2.6: words written out from the encoding tables. A sanity statement. -/
def Obligations.WrittenWordsDecode : Prop :=
  decodeCommand 0x100000041 = .ok (.wlit 0x41) ∧ decodeCommand 0x1000000FF = .ok (.wlit 0xFF) ∧
  decodeCommand 0x201020001 = .ok (.wld 258 1) ∧ decodeCommand 0x2FFFFFFFF = .ok (.wld 65535 65535) ∧
  decodeCommand 0x300000000 = .ok .rst ∧ decodeCommand 0x400000000 = .ok .snap ∧
  decodeCommand 0x500000000 = .ok .drain ∧ decode (.header 0b10) = .ok (.hdr 2) ∧
  decodeCommand 0x000000000 = .error .reservedOp ∧ decodeCommand 0x600000000 = .error .reservedOp ∧
  decodeCommand 0x700000000 = .error .reservedOp ∧ decodeCommand 0x100000100 = .error .reservedBit ∧
  decodeCommand 0x100010041 = .error .reservedBit ∧ decodeCommand 0x300000001 = .error .reservedBit ∧
  decodeCommand 0x500010000 = .error .reservedBit ∧ decodeCommand 0x4FFFFFFFF = .error .reservedBit

/-- 30_encoding.md R50: the numbers of the three token words; the word and the tagged value determine each other. -/
def Obligations.TokenWordNumbers : Prop :=
  (∀ b : Byte, (litWord b).toNat = b.toNat) ∧
  (∀ l : HalfWord, (lenWord l).toNat = 0x10000 + l.toNat) ∧
  (∀ d : HalfWord, (distWord d).toNat = 0x20000 + d.toNat) ∧
  (∀ t : Token, readToken (tokenOf t) = some t) ∧
  (∀ (w : TokenWord) (t : Token), readToken w = some t → tokenOf t = w)

/-- 30_encoding.md R57: a text line with its operands in range assembles to the word of its command, an operand out of range
assembles to nothing, a level name is its number, and a raw word is itself. The characters of a line are not modelled, the
model's choice (log 17). -/
def Obligations.TextLinesAssemble : Prop :=
  (∀ b : Byte, (Line.wlit b.toNat).assemble = some (encode (.wlit b))) ∧
  (∀ l d : HalfWord, (Line.wld l.toNat d.toNat).assemble = some (encode (.wld l d))) ∧
  Line.rst.assemble = some (encode .rst) ∧ Line.snap.assemble = some (encode .snap) ∧
  Line.drain.assemble = some (encode .drain) ∧
  (∀ v : HeaderRequest, (Line.hdr v.toNat).assemble = some (encode (.hdr v))) ∧
  (∀ v : Level, (Line.hdrNamed v).assemble = (Line.hdr v.ordinal.toNat).assemble) ∧
  (∀ w : CommandWord, (Line.cmd w.toNat).assemble = some (.command w)) ∧
  (∀ n, 255 < n → (Line.wlit n).assemble = none) ∧
  (∀ l d, 65535 < l ∨ 65535 < d → (Line.wld l d).assemble = none) ∧
  (∀ n, 3 < n → (Line.hdr n).assemble = none)

/-! ### The step -/

/-- 00_scope.md R10, log 3: when the host's next word decodes to `i`, the step is the execution of `i` after the word has
been taken from the host. -/
def Obligations.StepRunsDecodedInstruction : Prop :=
  ∀ (s : State) (p : PortWord) (i : Instr) (rest : List Event),
    s.inputs = .present p :: rest → decode p = .ok i → step s = exec i { s with inputs := rest }

/-- The step in its other cases (log 3): nothing presented, nothing changes; a word that decodes to nothing is answered as
an illegal command. -/
def Obligations.StepWithoutInstruction : Prop :=
  ∀ s : State,
    (s.inputs = [] → step s = .next s) ∧
    (∀ (w : CommandWord) (r : Illegal) (rest : List Event), s.cfg.wf = true →
      s.inputs = .present (.command w) :: rest → decodeCommand w = .error r →
      step s = .next (if s.fault then
          { s with inputs := rest, responses := s.responses ++ [⟨false, s.cause, {}⟩] }
        else
          { s with inputs := rest, fault := true, cause := 4, responses := s.responses ++ [⟨false, 4, {}⟩] }))

/-- Log 13: a table row's word that is presented is the word the next step serves; if it decodes, the step executes it. -/
def Obligations.PresentedWordRunsNext : Prop :=
  (∀ (s : State) (nbits w : Nat) (p : PortWord),
    portWordOf nbits w = some p → step (s.withFetchWord nbits w) = acceptWord p s) ∧
  (∀ (s : State) (nbits w : Nat) (i : Instr),
    decodeTableWord nbits w = some i → step (s.withFetchWord nbits w) = exec i s)

/-- 40_recorder_writes.md R58: the prologue. The fault state refuses before the word is decoded, an illegal word raises
BAD_CMD, and any other word is dispatched on its `op`. -/
def Obligations.PrologueDecidesInOrder : Prop :=
  ∀ (s : State) (w : CommandWord), s.cfg.wf = true →
    (s.fault = true →
      acceptCommand w s = .next { s with responses := s.responses ++ [⟨false, s.cause, {}⟩] }) ∧
    (s.fault = false → IllegalWord s.cfg w →
      acceptCommand w s =
        .next { s with fault := true, cause := 4, responses := s.responses ++ [⟨false, 4, {}⟩] }) ∧
    (s.fault = false → ¬ IllegalWord s.cfg w →
      (opField w = 0b001 ∧ acceptCommand w s = exec (.wlit (bLowField w)) s) ∨
      (opField w = 0b010 ∧ acceptCommand w s = exec (.wld (aField w) (bField w)) s) ∨
      (opField w = 0b011 ∧ acceptCommand w s = exec .rst s) ∨
      (opField w = 0b100 ∧ acceptCommand w s = exec .snap s) ∨
      (opField w = 0b101 ∧ acceptCommand w s = exec .drain s))

/-- 00_scope.md R11: every command word has an outcome, which is completed, faulted or refused, and the last two change
nothing but what they name. With it the step is total (R10), and nothing is held or stalled. -/
def Obligations.ThreeOutcomes : Prop :=
  ∀ (s : State) (w : CommandWord), s.cfg.wf = true → s.Shaped →
    ∃ t, acceptCommand w s = .next t ∧
      ((s.fault = false ∧ t.fault = false ∧ t.cause = s.cause ∧
          (∃ i, decodeCommand w = .ok i ∧ acceptCommand w s = exec i s) ∧
          ∃ pl, t.responses = s.responses ++ [⟨true, 0, pl⟩]) ∨
        (s.fault = false ∧ ∃ c : CauseCode, c ≠ 0 ∧ c.toNat ≤ 4 ∧
          t = { s with fault := true, cause := c, responses := s.responses ++ [⟨false, c, {}⟩] }) ∨
        (s.fault = true ∧ t = { s with responses := s.responses ++ [⟨false, s.cause, {}⟩] }))

/-- 10_state.md R26, 00_scope.md R10: the configuration is a parameter of the step and the response an output. A command word
is answered by a function of configuration, architectural state and word alone, a Header request by a function of the
configuration and the level, and hardware reset by the configuration; what the host has still to do and has been given (log 3,
4) is read by none of them. That hardware reset samples `MODE` and keeps every other parameter is the model's reading (DEDUCED,
log 10). -/
def Obligations.StepReadsConfigStateWord : Prop :=
  (∀ (s : State) (w : CommandWord), s.cfg.wf = true →
    acceptCommand w s =
      match recorderStep s.cfg s.toRecorder w with
      | .ok (r, p) => .next { s with toRecorder := r, responses := s.responses ++ [p] }
      | .error e => .fault e) ∧
  (∀ (s : State) (level : HeaderRequest), s.cfg.wf = true →
    exec (.hdr level) s = .next { s with headers := s.headers ++ [buildHeader s.cfg.cmfConst level] }) ∧
  (∀ (s : State) (m : Mode), s.cfg.wf = true →
    hardwareReset s m = .next { s with toRecorder := Recorder.initial s.cfg, cfg := { s.cfg with mode := m } })

/-- 20_memory.md R38, 10_state.md R26: the command sequence is the host's. Where command words wait, as many steps as there are
words leave the left fold of the step over them as the architectural state, and have answered its responses in order. That
the words wait in a list is the model's choice (log 3). -/
def Obligations.RunIsFoldOfSteps : Prop :=
  ∀ (s : State) (ws : List CommandWord), s.cfg.wf = true → s.inputs = commands ws →
    Host.Core.run Sys2Proof.core ws.length s =
      match recorderRun s.cfg s.toRecorder ws with
      | .ok (r, ps) => .next { s with toRecorder := r, inputs := [], responses := s.responses ++ ps }
      | .error e => .fault e

/-- 00_scope.md R6, log 8: an ill-formed configuration is refused by every instruction and by hardware reset. -/
def Obligations.IllFormedConfigRefused : Prop :=
  ∀ s : State, s.cfg.wf = false →
    (∀ i, exec i s = .refused .illFormedConfig) ∧
    (∀ w, acceptCommand w s = .refused .illFormedConfig) ∧
    (∀ m, hardwareReset s m = .refused .illFormedConfig)

/-- 30_encoding.md R53: head and payload of the one response of a command word. -/
def Obligations.ResponseHeads : Prop :=
  ∀ (s t : State) (w : CommandWord) (r : Response),
    acceptCommand w s = .next t → t.responses = s.responses ++ [r] →
    (r.ok = true ↔ t.fault = false) ∧
    (r.ok = true → r.cause = 0) ∧
    (r.ok = false → r.cause = t.cause) ∧
    (r.ok = true → decodeCommand w = .ok .drain → r.payload = { tokens := s.tok } ∧ s.tok.length = s.tokCount) ∧
    (r.ok = true → decodeCommand w = .ok .snap →
      r.payload = { ll := s.llFreq.take s.cfg.numLitlenLive, dd := s.dFreq.take s.cfg.numDist } ∧
      r.payload.ll.length = s.cfg.numLitlenLive ∧ r.payload.dd.length = s.cfg.numDist) ∧
    (r.ok = false ∨ (decodeCommand w ≠ .ok .drain ∧ decodeCommand w ≠ .ok .snap) → r.payload = {})

/-! ### The commands -/

/-- 40_recorder_writes.md R59, WLIT whole: its word, its effect where it fits, its flags, its one fault. The premise
`CountersFit` of the completing case is given by `InvGivesCountersFit`; `CountersKeepTheirWidth` says the case without it. -/
def Obligations.WlitExecutes : Prop :=
  ∀ (s : State) (b : Byte), s.Ready →
    encode (.wlit b) = .command (BitVec.ofNat 35 (0x100000000 + b.toNat)) ∧
    (s.CountersFit → s.tokCount + 1 ≤ s.cfg.depth →
      let t : State :=
        { s with
          tok := s.tok ++ [b.setWidth 18]
          llFreq := if s.cfg.mode = .statistical then s.llFreq.modify b.toNat (· + 1) else s.llFreq
          responses := s.responses ++ [⟨true, 0, {}⟩] }
      exec (.wlit b) s = .next t ∧ t.tokCount = s.tokCount + 1 ∧ t.empty = false ∧
        t.full = decide (s.tokCount + 1 = s.cfg.depth)) ∧
    (s.cfg.depth < s.tokCount + 1 →
      exec (.wlit b) s =
        .next { s with fault := true, cause := 3, responses := s.responses ++ [⟨false, 3, {}⟩] })

/-- 40_recorder_writes.md R60, WLD whole: its word, the three checks in their order and in both modes, its effect where it
fits, its flags. -/
def Obligations.WldExecutes : Prop :=
  ∀ (s : State) (l d : HalfWord), s.Ready →
    encode (.wld l d) = .command (BitVec.ofNat 35 (0x200000000 + l.toNat * 0x10000 + d.toNat)) ∧
    (s.cfg.lenSym l = none →
      exec (.wld l d) s =
        .next { s with fault := true, cause := 1, responses := s.responses ++ [⟨false, 1, {}⟩] }) ∧
    (∀ ls, s.cfg.lenSym l = some ls → s.cfg.distSym d = none →
      exec (.wld l d) s =
        .next { s with fault := true, cause := 2, responses := s.responses ++ [⟨false, 2, {}⟩] }) ∧
    (∀ ls ds, s.cfg.lenSym l = some ls → s.cfg.distSym d = some ds → s.cfg.depth < s.tokCount + 2 →
      exec (.wld l d) s =
        .next { s with fault := true, cause := 3, responses := s.responses ++ [⟨false, 3, {}⟩] }) ∧
    (∀ ls ds, s.cfg.lenSym l = some ls → s.cfg.distSym d = some ds → s.CountersFit →
      s.tokCount + 2 ≤ s.cfg.depth →
      let t : State :=
        { s with
          tok := s.tok ++ [0x10000 + l.setWidth 18, 0x20000 + d.setWidth 18]
          llFreq := if s.cfg.mode = .statistical then s.llFreq.modify ls (· + 1) else s.llFreq
          dFreq := if s.cfg.mode = .statistical then s.dFreq.modify ds (· + 1) else s.dFreq
          responses := s.responses ++ [⟨true, 0, {}⟩] }
      exec (.wld l d) s = .next t ∧ t.tokCount = s.tokCount + 2 ∧ t.empty = false ∧
        t.full = decide (s.tokCount + 2 = s.cfg.depth))

/-- The two writes where nothing is assumed of the counters (log 6): they complete in every ready state in which they fit,
every counter they update counts up by one if the sum fits its width, and stays inside its width in any case. True whatever
the free value `Config.counterPastWidth` is. -/
def Obligations.CountersKeepTheirWidth : Prop :=
  (∀ (s : State) (b : Byte), s.Ready → s.tokCount + 1 ≤ s.cfg.depth →
    ∃ t, exec (.wlit b) s = .next t ∧ t.tok = s.tok ++ [litWord b] ∧ t.fault = false ∧
      t.responses = s.responses ++ [⟨true, 0, {}⟩] ∧
      (s.cfg.mode = .statistical → ∃ v v', s.llFreq[b.toNat]? = some v ∧ t.llFreq[b.toNat]? = some v' ∧
        v' < 2 ^ s.cfg.cntW ∧ (v + 1 < 2 ^ s.cfg.cntW → v' = v + 1))) ∧
  (∀ (s : State) (l d : HalfWord) (ls ds : Nat), s.Ready → s.cfg.lenSym l = some ls → s.cfg.distSym d = some ds →
    s.tokCount + 2 ≤ s.cfg.depth →
    ∃ t, exec (.wld l d) s = .next t ∧ t.tok = s.tok ++ [lenWord l, distWord d] ∧ t.fault = false ∧
      t.responses = s.responses ++ [⟨true, 0, {}⟩] ∧
      (s.cfg.mode = .statistical →
        (∃ v v', s.llFreq[ls]? = some v ∧ t.llFreq[ls]? = some v' ∧
          v' < 2 ^ s.cfg.cntW ∧ (v + 1 < 2 ^ s.cfg.cntW → v' = v + 1)) ∧
        (∃ v v', s.dFreq[ds]? = some v ∧ t.dFreq[ds]? = some v' ∧
          v' < 2 ^ s.cfg.cntW ∧ (v + 1 < 2 ^ s.cfg.cntW → v' = v + 1))))

/-- 41_recorder_control_read.md R62, RST whole: its word, its effect, its flags; FAULT and CAUSE are not written; it is
idempotent. -/
def Obligations.RstExecutes : Prop :=
  ∀ s : State, s.cfg.wf = true → s.fault = false →
    encode .rst = .command 0x300000000 ∧
    (let t : State :=
      { s with
        tok := []
        llFreq := (List.range s.cfg.numLitlenRaw).map fun i => if i = s.cfg.eobIndex then 1 else 0
        dFreq := (List.range s.cfg.numDist).map fun _ => 0
        responses := s.responses ++ [⟨true, 0, {}⟩] }
     exec .rst s = .next t ∧ t.empty = true ∧ t.full = false ∧
       exec .rst t = .next { t with responses := t.responses ++ [⟨true, 0, {}⟩] })

/-- 41_recorder_control_read.md R63, SNAP whole: its word, the payload by value with its sizes and indices, no state
change; illegal in Plain mode. -/
def Obligations.SnapExecutes : Prop :=
  ∀ s : State, s.Ready →
    encode .snap = .command 0x400000000 ∧
    (s.cfg.mode = .statistical → ∃ ll dd : List Nat,
      exec .snap s = .next { s with responses := s.responses ++ [⟨true, 0, { ll := ll, dd := dd }⟩] } ∧
      ll.length = s.cfg.numLitlenLive ∧ (∀ i < s.cfg.numLitlenLive, ll[i]? = s.llFreq[i]?) ∧
      dd.length = s.cfg.numDist ∧ (∀ i < s.cfg.numDist, dd[i]? = s.dFreq[i]?)) ∧
    (s.cfg.mode = .plain →
      exec .snap s = .next { s with fault := true, cause := 4, responses := s.responses ++ [⟨false, 4, {}⟩] })

/-- 41_recorder_control_read.md R64, DRAIN whole: its word, the buffered tokens oldest first, in both modes; nothing is
removed, so a DRAIN after further writes returns the earlier tokens again followed by the new ones. -/
def Obligations.DrainExecutes : Prop :=
  ∀ s : State, s.cfg.wf = true → s.fault = false →
    encode .drain = .command 0x500000000 ∧
    exec .drain s = .next { s with responses := s.responses ++ [⟨true, 0, { tokens := s.tok }⟩] } ∧
    (∀ (ws : List TokenWord) (t : State), t = { s with tok := s.tok ++ ws } →
      exec .drain t = .next { t with responses := t.responses ++ [⟨true, 0, { tokens := s.tok ++ ws }⟩] })

/-- 42_header_builder.md R67, HDR whole: the two bytes, from the level alone, in every mode and in the fault state. -/
def Obligations.HdrExecutes : Prop :=
  ∀ level : HeaderRequest, ∃ h : HeaderWord,
    encode (.hdr level) = .header level ∧
    (h.extractLsb' 8 8).toNat = 0x78 ∧
    (h.extractLsb' 0 8).toNat = level.toNat * 64 + (31 - (0x78 * 256 + level.toNat * 64) % 31) ∧
    h.toNat = (h.extractLsb' 8 8).toNat * 256 + (h.extractLsb' 0 8).toNat ∧
    h.getLsbD 5 = false ∧
    ∀ s : State, s.cfg.wf = true → exec (.hdr level) s = .next { s with headers := s.headers ++ [h] }

/-- 42_header_builder.md R68, which the spec marks as derived from R66, R67 and R71: the complete function table of HDR, and its
agreement with the formula. The names of the levels are R70's. -/
def Obligations.HdrTable : Prop :=
  ∀ s : State, s.cfg.wf = true →
    ∀ row ∈ [(Level.fastest, (0 : HeaderRequest), 0x00, 30720, 30, 1, 0x01, 0x7801, 991),
        (.fast, 1, 0x40, 30784, 1, 30, 0x5E, 0x785E, 994), (.default, 2, 0x80, 30848, 3, 28, 0x9C, 0x789C, 996),
        (.maximum, 3, 0xC0, 30912, 5, 26, 0xDA, 0x78DA, 998)],
      let (name, level, flg0, value, rem, chk, byte1, hdr, quotient) := row
      name.ordinal = level ∧ level.toNat * 64 = flg0 ∧ 0x78 * 256 + flg0 = value ∧ value % 31 = rem ∧ 31 - rem = chk ∧
        flg0 + chk = byte1 ∧ 0x78 * 256 + byte1 = hdr ∧ hdr = 31 * quotient ∧
        exec (.hdr level) s = .next { s with headers := s.headers ++ [BitVec.ofNat 16 hdr] }

/-- 42_header_builder.md R66: `FCheck` is the formula on natural numbers, and the four properties the spec derives from it. -/
def Obligations.FCheckProperties : Prop :=
  ∀ cmf f : Byte,
    (fcheck cmf f).toNat =
      (f &&& 0xE0).toNat + (31 - (cmf.toNat * 256 + (f &&& 0xE0).toNat) % 31) ∧
    (cmf.toNat * 256 + (fcheck cmf f).toNat) % 31 = 0 ∧
    fcheck cmf (fcheck cmf f) = fcheck cmf f ∧ fcheck cmf f = fcheck cmf (f &&& 0xE0) ∧
    fcheck cmf f &&& 0xE0 = f &&& 0xE0 ∧
    ((cmf.toNat * 256 + (f &&& 0xE0).toNat) % 31 = 0 → fcheck cmf f &&& 0x1F = 31)

/-- 42_header_builder.md R69: every header that HDR answers is divisible by 31, and two requests with the same level are
answered alike, in whatever states. -/
def Obligations.HeaderDivisible : Prop :=
  ∀ (level : HeaderRequest) (s t : State), exec (.hdr level) s = .next t →
    ∃ h : HeaderWord, t.headers = s.headers ++ [h] ∧
      ((headerByte0 h).toNat * 256 + (headerByte1 h).toNat) % 31 = 0 ∧
      ∀ s' t' : State, exec (.hdr level) s' = .next t' → t'.headers = s'.headers ++ [h]

/-! ### Frames -/

/-- What WLIT leaves unchanged (20_memory.md R28, 40_recorder_writes.md R59), from every state. -/
def Obligations.WlitFrame : Prop :=
  ∀ (s t : State) (b : Byte), exec (.wlit b) s = .next t →
    t.cfg = s.cfg ∧ t.inputs = s.inputs ∧ t.headers = s.headers ∧ t.dFreq = s.dFreq ∧
    (∀ j, j ≠ literalIndex b → t.llFreq[j]? = s.llFreq[j]?) ∧
    (s.cfg.mode = .plain → t.llFreq = s.llFreq) ∧
    (∀ j, j ≠ s.tokCount → t.tok[j]? = s.tok[j]?) ∧
    (t.fault = s.fault → t.cause = s.cause) ∧ (s.fault = true → t.fault = true) ∧
    (∀ j < s.responses.length, t.responses[j]? = s.responses[j]?) ∧
    t.responses.length = s.responses.length + 1

/-- What WLD leaves unchanged (20_memory.md R28, 40_recorder_writes.md R60), from every state. -/
def Obligations.WldFrame : Prop :=
  ∀ (s t : State) (l d : HalfWord), exec (.wld l d) s = .next t →
    t.cfg = s.cfg ∧ t.inputs = s.inputs ∧ t.headers = s.headers ∧
    (∀ j, s.cfg.lenSym l ≠ some j → t.llFreq[j]? = s.llFreq[j]?) ∧
    (∀ j, s.cfg.distSym d ≠ some j → t.dFreq[j]? = s.dFreq[j]?) ∧
    (s.cfg.mode = .plain → t.llFreq = s.llFreq ∧ t.dFreq = s.dFreq) ∧
    (∀ j, j ≠ s.tokCount → j ≠ s.tokCount + 1 → t.tok[j]? = s.tok[j]?) ∧
    (t.fault = s.fault → t.cause = s.cause) ∧ (s.fault = true → t.fault = true) ∧
    (∀ j < s.responses.length, t.responses[j]? = s.responses[j]?) ∧
    t.responses.length = s.responses.length + 1

/-- What RST leaves unchanged (41_recorder_control_read.md R62), from every state. It writes the token store's count and both
tables whole, and nothing else. -/
def Obligations.RstFrame : Prop :=
  ∀ s t : State, exec .rst s = .next t →
    t.cfg = s.cfg ∧ t.inputs = s.inputs ∧ t.headers = s.headers ∧ t.fault = s.fault ∧ t.cause = s.cause ∧
    (∀ j < s.responses.length, t.responses[j]? = s.responses[j]?) ∧
    t.responses.length = s.responses.length + 1

/-- What SNAP and DRAIN leave unchanged (20_memory.md R28, R34), from every state: every entry of every store. SNAP in Plain
mode is an illegal command and sets FAULT and CAUSE. -/
def Obligations.ReadFrame : Prop :=
  ∀ (s t : State) (i : Instr), i = .snap ∨ i = .drain → exec i s = .next t →
    t.cfg = s.cfg ∧ t.inputs = s.inputs ∧ t.headers = s.headers ∧
    t.tok = s.tok ∧ t.llFreq = s.llFreq ∧ t.dFreq = s.dFreq ∧
    (i = .drain ∨ s.cfg.mode = .statistical → t.fault = s.fault ∧ t.cause = s.cause) ∧
    (t.fault = s.fault → t.cause = s.cause) ∧ (s.fault = true → t.fault = true) ∧
    (∀ j < s.responses.length, t.responses[j]? = s.responses[j]?) ∧
    t.responses.length = s.responses.length + 1

/-- What HDR leaves unchanged (20_memory.md R28, 42_header_builder.md R67), from every state: all of the Recorder unit and
every earlier output. -/
def Obligations.HdrFrame : Prop :=
  ∀ (s t : State) (level : HeaderRequest), exec (.hdr level) s = .next t →
    sameState t s ∧ t.inputs = s.inputs ∧ t.responses = s.responses ∧
    (∀ j < s.headers.length, t.headers[j]? = s.headers[j]?) ∧ t.headers.length = s.headers.length + 1

/-- 20_memory.md R34: no read has a side effect, and two reads with no write or reset between return equal payloads. -/
def Obligations.ReadsRepeat : Prop :=
  (∀ (s t : State) (i : Instr), i = .snap ∨ i = .drain → exec i s = .next t → t.fault = false →
    ∃ r : Response, t = { s with responses := s.responses ++ [r] } ∧
      exec i t = .next { t with responses := t.responses ++ [r] }) ∧
  (∀ (s t : State) (level : HeaderRequest), exec (.hdr level) s = .next t →
    ∃ h : HeaderWord, t = { s with headers := s.headers ++ [h] } ∧
      exec (.hdr level) t = .next { t with headers := t.headers ++ [h] })

/-! ### Faults -/

/-- 60_exceptions.md R80: in the fault state every command word is refused with the stored cause and changes no state; the
status port shows what it showed, and the Header unit answers. -/
def Obligations.FaultStateRefuses : Prop :=
  ∀ s : State, s.cfg.wf = true → s.fault = true →
    (∀ w : CommandWord, ∃ t,
      acceptCommand w s = .next t ∧ t = { s with responses := s.responses ++ [⟨false, s.cause, {}⟩] } ∧
      t.statusPort = s.statusPort) ∧
    (∀ level : HeaderRequest, ∃ h, exec (.hdr level) s = .next { s with headers := s.headers ++ [h] })

/-- 60_exceptions.md R81: only hardware reset leaves the fault state; the first cause stays; the reset discards all tokens
and counts. -/
def Obligations.FaultLeftOnlyByHardwareReset : Prop :=
  ∀ s t : State, step s = .next t → s.fault = true →
    (t.fault = false ↔ ∃ m a rest, s.inputs = .hardwareReset m a :: rest) ∧
    (t.fault = true → t.cause = s.cause ∧ t.tok = s.tok ∧ t.llFreq = s.llFreq ∧ t.dFreq = s.dFreq) ∧
    (t.fault = false → t.cause = 0 ∧ t.tok = [] ∧ t.llFreq = s.cfg.seededLL ∧ t.dFreq = s.cfg.seededD)

/-- 60_exceptions.md R78: the order of the causes, on one command word. -/
def Obligations.CausePriority : Prop :=
  ∀ (s t : State) (w : CommandWord), acceptCommand w s = .next t →
    t.cause =
      if s.fault = true then s.cause
      else if IllegalWord s.cfg w then 4
      else if opField w = 2 ∧ s.cfg.lenSym (aField w) = none then 1
      else if opField w = 2 ∧ s.cfg.distSym (bField w) = none then 2
      else if (opField w = 1 ∧ s.cfg.depth < s.tokCount + 1) ∨ (opField w = 2 ∧ s.cfg.depth < s.tokCount + 2) then 3
      else s.cause

/-- 60_exceptions.md R74: BAD_LENGTH exactly when the lookup gives no length code, in both modes; the faulting lengths of
REF, whose numbers are the spec's own general knowledge (log 16). -/
def Obligations.BadLengthExactly : Prop :=
  (∀ (s t : State) (l d : HalfWord), s.fault = false → exec (.wld l d) s = .next t →
    ((t.fault = true ∧ t.cause = 1) ↔ s.cfg.lenSym l = none)) ∧
  (∀ (m : Mode) (depth : Nat) (l : HalfWord),
    (Config.ref m depth).lenSym l = none ↔ l.toNat ≤ 2 ∨ 259 ≤ l.toNat)

/-- 60_exceptions.md R75: BAD_DISTANCE exactly when the length has a code and the distance has none, in both modes; the
faulting distances of REF, whose numbers are the spec's own general knowledge (log 16). -/
def Obligations.BadDistanceExactly : Prop :=
  (∀ (s t : State) (l d : HalfWord), s.fault = false → exec (.wld l d) s = .next t →
    ((t.fault = true ∧ t.cause = 2) ↔ s.cfg.lenSym l ≠ none ∧ s.cfg.distSym d = none)) ∧
  (∀ (m : Mode) (depth : Nat) (d : HalfWord),
    (Config.ref m depth).distSym d = none ↔ d.toNat = 0 ∨ 32769 ≤ d.toNat)

/-- 60_exceptions.md R76: OVERFLOW exactly on a full store for WLIT, and for WLD with valid operands when fewer than two
entries are free. The premise is invariant (a) of 10_state.md R23, kept by `StepKeepsInv`. -/
def Obligations.OverflowExactly : Prop :=
  ∀ s t : State, s.fault = false → s.tokCount ≤ s.cfg.depth →
    (∀ b : Byte, exec (.wlit b) s = .next t →
      ((t.fault = true ∧ t.cause = 3) ↔ s.tokCount = s.cfg.depth)) ∧
    (∀ l d : HalfWord, s.cfg.lenSym l ≠ none → s.cfg.distSym d ≠ none → exec (.wld l d) s = .next t →
      ((t.fault = true ∧ t.cause = 3) ↔ s.cfg.depth - 1 ≤ s.tokCount))

/-- 10_state.md R16: `TOK_COUNT` is the length of the buffered list and the index of the next token word; WLIT adds 1, WLD
adds 2, RST and hardware reset set it to 0, and nothing else writes it. The premise is invariant (a) of 10_state.md R23. -/
def Obligations.CountIsAppendPointer : Prop :=
  ∀ s t : State, s.tokCount ≤ s.cfg.depth →
    (∀ w : CommandWord, acceptCommand w s = .next t →
      t.tokCount ≤ t.cfg.depth ∧
      t.tokCount =
        (if t.fault = true then s.tokCount
         else if opField w = 1 then s.tokCount + 1
         else if opField w = 2 then s.tokCount + 2
         else if opField w = 3 then 0
         else s.tokCount) ∧
      (t.fault = false → opField w = 1 → t.tok[s.tokCount]? = some (litWord (bLowField w))) ∧
      (t.fault = false → opField w = 2 →
        t.tok[s.tokCount]? = some (lenWord (aField w)) ∧ t.tok[s.tokCount + 1]? = some (distWord (bField w)))) ∧
    (∀ level : HeaderRequest, exec (.hdr level) s = .next t → t.tokCount = s.tokCount) ∧
    (∀ m : Mode, hardwareReset s m = .next t → t.tokCount = 0)

/-- 10_state.md R20: the derived flags, and that they govern the writes. -/
def Obligations.FreeGovernsWrites : Prop :=
  (∀ s : State, s.free = s.cfg.depth - s.tokCount ∧ (s.empty = true ↔ s.tokCount = 0) ∧
    (s.full = true ↔ s.tokCount = s.cfg.depth)) ∧
  (∀ (s t : State) (b : Byte), s.fault = false → exec (.wlit b) s = .next t → t.fault = false → 1 ≤ s.free) ∧
  (∀ (s t : State) (l d : HalfWord),
    s.fault = false → exec (.wld l d) s = .next t → t.fault = false → 2 ≤ s.free) ∧
  (∀ c : Config, c.wf = true →
    (State.initial c).empty = true ∧ (State.initial c).full = false ∧ (State.initial c).free = c.depth) ∧
  (∀ s t : State, s.fault = false → exec .rst s = .next t →
    t.empty = true ∧ t.full = false ∧ t.free = t.cfg.depth)

/-- 10_state.md R21: the status port is the projection of the state. -/
def Obligations.StatusPortShows : Prop :=
  ∀ s : State,
    (s.statusPort.mode = 1 ↔ s.cfg.mode = .statistical) ∧ s.statusPort.fault = s.fault ∧
    s.statusPort.cause = s.cause ∧ s.statusPort.count = s.tokCount ∧
    (s.statusPort.empty = true ↔ s.tokCount = 0) ∧ (s.statusPort.full = true ↔ s.tokCount = s.cfg.depth)

/-! ### Reset -/

/-- 70_reset_and_hazards.md R87: hardware reset, unconditional and total, whatever command it abandons, with no response and
no effect on the Header unit. -/
def Obligations.HardwareResetState : Prop :=
  ∀ (s : State) (m : Mode) (a : Option CommandWord) (rest : List Event),
    s.cfg.wf = true → s.inputs = .hardwareReset m a :: rest →
    ∃ t : State, step s = .next t ∧ t.cfg.mode = m ∧ t.tokCount = 0 ∧
      t.llFreq = ((List.range s.cfg.numLitlenRaw).map fun i => if i = s.cfg.eobIndex then 1 else 0) ∧
      t.dFreq = ((List.range s.cfg.numDist).map fun _ => 0) ∧
      t.fault = false ∧ t.cause = 0 ∧ t.responses = s.responses ∧ t.headers = s.headers

/-- What hardware reset leaves unchanged: every parameter but `MODE` (DEDUCED, log 10), and what the host has still to do. -/
def Obligations.HardwareResetFrame : Prop :=
  ∀ (s t : State) (m : Mode), hardwareReset s m = .next t →
    t.cfg = { s.cfg with mode := m } ∧ t.inputs = s.inputs ∧ t.responses = s.responses ∧ t.headers = s.headers

/-- 70_reset_and_hazards.md R88, which the spec marks as derived from R87 and R62: hardware reset and RST leave one observable
state, and differ in three things. That hardware reset keeps the other parameters is the model's reading, log 10. -/
def Obligations.HardwareResetAndRstCompared : Prop :=
  ∀ (s : State) (m : Mode), s.cfg.wf = true →
    ∃ r h : State, exec .rst s = .next r ∧ hardwareReset s m = .next h ∧
      (s.fault = false → r.tok = [] ∧ h.tok = [] ∧ r.llFreq = s.cfg.seededLL ∧ h.llFreq = s.cfg.seededLL ∧
        r.dFreq = s.cfg.seededD ∧ h.dFreq = s.cfg.seededD) ∧
      h.fault = false ∧ h.cause = 0 ∧ r.fault = s.fault ∧ r.cause = s.cause ∧
      (s.fault = true → h.tok = [] ∧ r = { s with responses := s.responses ++ [⟨false, s.cause, {}⟩] }) ∧
      h.cfg = { s.cfg with mode := m } ∧ r.cfg = s.cfg

/-- 10_state.md R25: the values after hardware reset and after a completed RST. -/
def Obligations.ResetValues : Prop :=
  (∀ c : Config, c.wf = true →
    let s := State.initial c
    s.cfg.mode = c.mode ∧ s.tokCount = 0 ∧ s.fault = false ∧ s.cause = 0 ∧
    s.llFreq.length = c.numLitlenRaw ∧ s.dFreq.length = c.numDist ∧
    (∀ i < c.numLitlenRaw, s.llFreq[i]? = some (if i = c.eobIndex then 1 else 0)) ∧
    (∀ i < c.numDist, s.dFreq[i]? = some 0) ∧ s.empty = true ∧ s.full = false ∧ s.free = c.depth) ∧
  (∀ s t : State, exec .rst s = .next t → s.fault = false →
    t.cfg.mode = s.cfg.mode ∧ t.tokCount = 0 ∧ t.fault = s.fault ∧ t.cause = s.cause ∧
    t.llFreq.length = s.cfg.numLitlenRaw ∧ t.dFreq.length = s.cfg.numDist ∧
    (∀ i < s.cfg.numLitlenRaw, t.llFreq[i]? = some (if i = s.cfg.eobIndex then 1 else 0)) ∧
    (∀ i < s.cfg.numDist, t.dFreq[i]? = some 0) ∧ t.empty = true ∧ t.full = false ∧ t.free = s.cfg.depth)

/-! ### Invariants and runs -/

/-- 10_state.md R23: the invariants hold after hardware reset under every well-formed configuration, and at `State.reset`,
whose configuration is the model's choice (log 2). -/
def Obligations.InvAtReset : Prop :=
  (∀ c : Config, c.wf = true → (State.initial c).Inv) ∧ State.reset.Inv

/-- 10_state.md R23: every step keeps the invariants, from every state that meets them. That a hardware reset keeps every
parameter but `MODE`, and with them a well-formed configuration, is the model's reading (DEDUCED, log 10). -/
def Obligations.StepKeepsInv : Prop :=
  ∀ s t : State, s.Inv → step s = .next t → t.Inv

/-- 41_recorder_control_read.md R65 (e): in a state that meets the invariants and in which a write fits, no counter is full,
so no counter is ever made to count past its width. -/
def Obligations.InvGivesCountersFit : Prop :=
  ∀ s : State, s.Inv → s.tokCount + 1 ≤ s.cfg.depth → s.CountersFit

/-- 10_state.md R23, which the spec marks as derived from R59, R60, R62 and R87: what holds in every state reachable from
hardware reset by any sequence of events, clause by clause. The events are log 3's, a hardware reset among them log 10's. -/
def Obligations.ReachableStates : Prop :=
  ∀ (c : Config) (es : List Event) (s : State), c.wf = true → runEvents es (State.initial c) = .next s →
    -- (a)
    s.tokCount ≤ s.cfg.depth ∧
    -- (b)
    (∃ us : List Entry, s.tok = us.flatMap Entry.words) ∧
    (∀ w, s.tok.getLast? = some w → w.extractLsb' 16 2 ≠ 0b01) ∧
    (∀ w ∈ s.tok, w.extractLsb' 16 2 ≠ 0b11) ∧
    -- (c), (e)
    (s.cfg.mode = .statistical →
      s.llFreq[s.cfg.eobIndex]? = some 1 ∧
      s.llFreq.sum = litCount s.tok + lenCount s.tok + 1 ∧ s.dFreq.sum = lenCount s.tok ∧
      (∀ b : Byte, s.llFreq[b.toNat]? = some (s.tok.count (litWord b))) ∧
      (∀ l i, s.cfg.lenSym l = some i → s.llFreq[i]? = some
        (s.tok.countP fun w => w.extractLsb' 16 2 == 0b01 && s.cfg.lenSym (w.extractLsb' 0 16) == some i)) ∧
      (∀ i < s.cfg.numDist, s.dFreq[i]? = some
        (s.tok.countP fun w => w.extractLsb' 16 2 == 0b10 && s.cfg.distSym (w.extractLsb' 0 16) == some i))) ∧
    -- (d)
    s.llFreq[s.cfg.numLitlenRaw - 2]? = some 0 ∧ s.llFreq[s.cfg.numLitlenRaw - 1]? = some 0 ∧
    -- (f)
    (s.cfg.mode = .plain → s.llFreq = s.cfg.seededLL ∧ s.dFreq = s.cfg.seededD) ∧
    -- (g)
    (s.cause = 0 ↔ s.fault = false) ∧
    -- (h)
    (∀ i v : Nat, s.llFreq[i]? = some v → i ≠ s.cfg.eobIndex → v ≤ s.tokCount) ∧
    (∀ i v : Nat, s.dFreq[i]? = some v → v ≤ s.tokCount) ∧
    (∀ v ∈ s.llFreq, v < 2 ^ s.cfg.cntW) ∧ (∀ v ∈ s.dFreq, v < 2 ^ s.cfg.cntW)

/-- 40_recorder_writes.md R61, which the spec marks as derived: two instances that differ only in MODE, given the same command words from hardware reset, none
of them SNAP, agree in everything but the tables; a SNAP then divides them. -/
def Obligations.ModesAgree : Prop :=
  ∀ (c : Config) (ws : List CommandWord), c.wf = true → (0x400000000 : CommandWord) ∉ ws →
    ∃ p t : State,
      runEvents (commands ws) (State.initial { c with mode := .plain }) = .next p ∧
      runEvents (commands ws) (State.initial { c with mode := .statistical }) = .next t ∧
      Twins p t ∧
      (t.fault = false →
        (∃ pl, acceptCommand 0x400000000 t = .next { t with responses := t.responses ++ [⟨true, 0, pl⟩] }) ∧
        acceptCommand 0x400000000 p =
          .next { p with fault := true, cause := 4, responses := p.responses ++ [⟨false, 4, {}⟩] })

/-- The step behind 40_recorder_writes.md R61: from any two states, reachable or not, that agree in everything but MODE and the
tables, a command word other than SNAP's leads both to a next state, and these agree again. -/
def Obligations.StepKeepsTwins : Prop :=
  ∀ (p t : State) (w : CommandWord), t.cfg.wf = true → p.Shaped → t.Shaped → Twins p t → w ≠ 0x400000000 →
    ∃ p' t' : State, acceptCommand w p = .next p' ∧ acceptCommand w t = .next t' ∧ Twins p' t'

/-- 41_recorder_control_read.md R65 (b), (c), which the spec marks as derived: after hardware reset and any command words that leave the unit unfaulted, DRAIN
returns the words of the writes since the last RST in command order, N + 2M of them, and in Statistical mode SNAP returns
tables that sum to N + M + 1 and M. -/
def Obligations.BlockReadBack : Prop :=
  ∀ (c : Config) (ws : List CommandWord) (s : State), c.wf = true →
    runEvents (commands ws) (State.initial c) = .next s → s.fault = false →
    exec .drain s = .next { s with responses := s.responses ++ [⟨true, 0, { tokens := blockTokens ws }⟩] } ∧
    (blockTokens ws).length = litCount (blockTokens ws) + 2 * lenCount (blockTokens ws) ∧
    (s.cfg.mode = .statistical → ∃ ll dd : List Nat,
      exec .snap s = .next { s with responses := s.responses ++ [⟨true, 0, { ll := ll, dd := dd }⟩] } ∧
      ll.sum = litCount (blockTokens ws) + lenCount (blockTokens ws) + 1 ∧
      dd.sum = lenCount (blockTokens ws))

/-- 20_memory.md R42: a Header request is unordered with respect to every command and every hardware reset: served before or
after, the state in the end is the same. That the requests stand in one list with them is the model's choice (log 15). -/
def Obligations.HeaderCommutes : Prop :=
  ∀ (s t : State) (e : Event) (level : HeaderRequest), acceptEvent e s = .next t →
    (∀ v, e ≠ .present (.header v)) →
    ∃ u v : State, exec (.hdr level) t = .next u ∧ exec (.hdr level) s = .next v ∧ acceptEvent e v = .next u

/-- 70_reset_and_hazards.md R95, R96: from a state that meets the invariants, as many steps as the host has events serve them
all: every command word has its response and every Header request its header. That the events wait in one list, Header
requests among them, and that the answers are kept in two is the model's choice (log 3, 4, 15). -/
def Obligations.EveryEventIsServed : Prop :=
  ∀ s : State, s.Inv →
    ∃ t : State, Host.Core.run Sys2Proof.core s.inputs.length s = .next t ∧ t.inputs = [] ∧
      t.responses.length = s.responses.length + s.inputs.countP Event.isCommand ∧
      t.headers.length = s.headers.length + s.inputs.countP
        (fun e => match e with | .present (.header _) => true | .present (.command _) | .hardwareReset _ _ => false)

/-- 20_memory.md R43: a payload is a value. No step changes or removes what the host has been given. That the state keeps it is
the model's choice (log 4). -/
def Obligations.PayloadsStayGiven : Prop :=
  ∀ s t : State, step s = .next t → s.responses <+: t.responses ∧ s.headers <+: t.headers

/-! ### Configurations -/

/-- 00_scope.md R6: the check of a configuration whose lookup rows are in canonical form (log 9) is the seven clauses of the
rule, pointwise in the lookup functions. -/
def Obligations.WellFormedMeansTheRule : Prop :=
  ∀ c : Config, rowsCanonical c.lenCodes = true → rowsCanonical c.distCodes = true →
    (c.wf = true ↔
      (c.numLitlenLive = c.numLitlenRaw - 2 ∧ 258 ≤ c.numLitlenLive) ∧
      (256 ≤ c.eobIndex ∧ c.eobIndex < c.numLitlenLive) ∧
      (∀ l i, c.lenSym l = some i → 256 ≤ i ∧ i < c.numLitlenLive ∧ i ≠ c.eobIndex) ∧
      (∀ d i, c.distSym d = some i → i < c.numDist) ∧
      (c.lenSym 258 ≠ none ∧ c.distSym 1 ≠ none ∧ c.distSym 0 = none ∧
        ∃ m : Nat, 1 ≤ m ∧ ∀ l : HalfWord, l.toNat < m → c.lenSym l = none) ∧
      (2 ≤ c.depth ∧ c.depth ≤ 2 ^ c.cntW - 1) ∧
      c.cmfConst = 0x78)

/-- Log 9: rows in canonical form lose nothing. Every function from u16 to an index or none has such a table. -/
def Obligations.EveryLookupHasRows : Prop :=
  ∀ f : HalfWord → Option Nat, ∃ rows : List CodeRow, rowsCanonical rows = true ∧ ∀ v, findCode rows v = f v

/-- 00_scope.md R7: the reference configuration, whose numbers are the spec's own general knowledge (log 16), is well formed for
every DEPTH the rule names, in both modes. -/
def Obligations.RefWellFormed : Prop :=
  ∀ (m : Mode) (depth : Nat), 2 ≤ depth → depth ≤ 65535 → (Config.ref m depth).wf = true
end

