-- ==== Sys2Proof/Laws/Decode.lean ====
section
/-! SUPPORT. The fields of a command word that is put together from its fields (30_encoding.md R45). -/

namespace Sys2Proof

theorem commandWord_getLsbD (op : BitVec 3) (a b : HalfWord) (i : Nat) :
    (commandWord op a b).getLsbD i =
      if i < 16 then b.getLsbD i else if i < 32 then a.getLsbD (i - 16) else op.getLsbD (i - 32) := by
  have h1 : (commandWord op a b).getLsbD i = if i < 16 then b.getLsbD i else (op ++ a).getLsbD (i - 16) :=
    BitVec.getLsbD_append
  have h2 : (op ++ a).getLsbD (i - 16) = if i - 16 < 16 then a.getLsbD (i - 16) else op.getLsbD (i - 16 - 16) :=
    BitVec.getLsbD_append
  rw [h1, h2]
  split
  · rfl
  · split <;> split <;> first | rfl | omega

theorem commandWord_toNat (op : BitVec 3) (a b : HalfWord) :
    (commandWord op a b).toNat = op.toNat * 2 ^ 32 + a.toNat * 2 ^ 16 + b.toNat := by
  have h1 : (commandWord op a b).toNat = (op ++ a).toNat <<< 16 ||| b.toNat := BitVec.toNat_append _ _
  have h2 : (op ++ a).toNat = op.toNat <<< 16 ||| a.toNat := BitVec.toNat_append _ _
  rw [h1, h2, ← Nat.shiftLeft_add_eq_or_of_lt a.isLt, ← Nat.shiftLeft_add_eq_or_of_lt b.isLt]
  simp only [Nat.shiftLeft_eq]
  omega

@[simp] theorem opField_commandWord (op : BitVec 3) (a b : HalfWord) : opField (commandWord op a b) = op := by
  apply BitVec.eq_of_toNat_eq
  simp only [opField, BitVec.extractLsb'_toNat, commandWord_toNat, Nat.shiftRight_eq_div_pow]
  have := op.isLt
  have := a.isLt
  have := b.isLt
  omega

@[simp] theorem aField_commandWord (op : BitVec 3) (a b : HalfWord) : aField (commandWord op a b) = a := by
  apply BitVec.eq_of_toNat_eq
  simp only [aField, BitVec.extractLsb'_toNat, commandWord_toNat, Nat.shiftRight_eq_div_pow]
  have := a.isLt
  have := b.isLt
  omega

@[simp] theorem bField_commandWord (op : BitVec 3) (a b : HalfWord) : bField (commandWord op a b) = b := by
  apply BitVec.eq_of_toNat_eq
  simp only [bField, BitVec.extractLsb'_toNat, commandWord_toNat, Nat.shiftRight_eq_div_pow]
  have := b.isLt
  omega

theorem bLowField_commandWord (op : BitVec 3) (a b : HalfWord) : bLowField (commandWord op a b) = b.setWidth 8 := by
  apply BitVec.eq_of_toNat_eq
  simp only [bLowField, BitVec.extractLsb'_toNat, commandWord_toNat, Nat.shiftRight_eq_div_pow, BitVec.toNat_setWidth]
  omega

theorem bHighField_commandWord (op : BitVec 3) (a b : HalfWord) :
    bHighField (commandWord op a b) = b.extractLsb' 8 8 := by
  apply BitVec.eq_of_toNat_eq
  simp only [bHighField, BitVec.extractLsb'_toNat, commandWord_toNat, Nat.shiftRight_eq_div_pow]
  have := b.isLt
  omega

/-- A command word is made of its three fields. -/
theorem commandWord_fields (w : CommandWord) : commandWord (opField w) (aField w) (bField w) = w := by
  apply BitVec.eq_of_toNat_eq
  simp only [commandWord_toNat, opField, aField, bField, BitVec.extractLsb'_toNat, Nat.shiftRight_eq_div_pow]
  have := w.isLt
  omega

theorem commandWord_inj {o o' : BitVec 3} {a a' b b' : HalfWord} :
    commandWord o a b = commandWord o' a' b' ↔ o = o' ∧ a = a' ∧ b = b' := by
  constructor
  · intro h
    exact ⟨by simpa using congrArg opField h, by simpa using congrArg aField h, by simpa using congrArg bField h⟩
  · rintro ⟨rfl, rfl, rfl⟩
    rfl

/-- Everything the command decoder can answer (30_encoding.md R46 to R48). -/
theorem decodeCommand_cases (w : CommandWord) :
    (opField w = 1 ∧ aField w = 0 ∧ bHighField w = 0 ∧ decodeCommand w = .ok (.wlit (bLowField w))) ∨
    (opField w = 2 ∧ decodeCommand w = .ok (.wld (aField w) (bField w))) ∨
    (opField w = 3 ∧ aField w = 0 ∧ bField w = 0 ∧ decodeCommand w = .ok .rst) ∨
    (opField w = 4 ∧ aField w = 0 ∧ bField w = 0 ∧ decodeCommand w = .ok .snap) ∨
    (opField w = 5 ∧ aField w = 0 ∧ bField w = 0 ∧ decodeCommand w = .ok .drain) ∨
    ((opField w = 0 ∨ opField w = 6 ∨ opField w = 7) ∧ decodeCommand w = .error .reservedOp) ∨
    (opField w = 1 ∧ (aField w ≠ 0 ∨ bHighField w ≠ 0) ∧ decodeCommand w = .error .reservedBit) ∨
    ((opField w = 3 ∨ opField w = 4 ∨ opField w = 5) ∧ (aField w ≠ 0 ∨ bField w ≠ 0) ∧
      decodeCommand w = .error .reservedBit) := by
  have hop : opField w = 0 ∨ opField w = 1 ∨ opField w = 2 ∨ opField w = 3 ∨ opField w = 4 ∨ opField w = 5 ∨
      opField w = 6 ∨ opField w = 7 := by
    generalize opField w = o
    revert o
    decide
  rcases hop with h | h | h | h | h | h | h | h <;> simp [decodeCommand, decodeBare, h]
  all_goals tauto

/-- A command word never decodes to the Header unit's request. -/
theorem decodeCommand_not_hdr (w : CommandWord) (level : HeaderRequest) : decodeCommand w ≠ .ok (.hdr level) := by
  rcases decodeCommand_cases w with ⟨_, _, _, h⟩ | ⟨_, h⟩ | ⟨_, _, _, h⟩ | ⟨_, _, _, h⟩ | ⟨_, _, _, h⟩ | ⟨_, h⟩ | ⟨_, _, h⟩ | ⟨_, _, h⟩ <;>
    simp [h]

end Sys2Proof
end

