-- ==== Sys2Proof/Laws/Lookup.lean ====
section
/-! SUPPORT. The lookups over canonical rows: what a found code is, and that each row is found. The row checks of
WellFormed.lean say the pointwise clauses of 00_scope.md R6. -/

namespace Sys2Proof

/-- A code that is found comes from a row that contains the value. -/
theorem findCode_some {rows : List CodeRow} {v : HalfWord} {i : Nat} (h : findCode rows v = some i) :
    ∃ r ∈ rows, r.lo ≤ v ∧ v ≤ r.hi ∧ r.sym = i := by
  induction rows with
  | nil => simp [findCode] at h
  | cons r rs ih =>
    simp only [findCode] at h
    split at h
    · rename_i hr
      exact ⟨r, by simp, hr.1, hr.2, by simpa using h⟩
    · obtain ⟨q, hq, hlo, hhi, hs⟩ := ih h
      exact ⟨q, List.mem_cons_of_mem _ hq, hlo, hhi, hs⟩

/-- No code is found exactly when no row contains the value. -/
theorem findCode_none {rows : List CodeRow} {v : HalfWord} :
    findCode rows v = none ↔ ∀ r ∈ rows, ¬ (r.lo.toNat ≤ v.toNat ∧ v.toNat ≤ r.hi.toNat) := by
  induction rows with
  | nil => simp [findCode]
  | cons r rs ih =>
    simp only [findCode, BitVec.le_def, List.forall_mem_cons]
    split
    · simp [*]
    · rw [ih]
      exact ⟨fun h => ⟨‹_›, h⟩, fun h => h.2⟩

theorem rowsCanonical_tail {r : CodeRow} {rs : List CodeRow} (h : rowsCanonical (r :: rs) = true) :
    rowsCanonical rs = true := by
  cases rs with
  | nil => rfl
  | cons r' rs => simp only [rowsCanonical, Bool.and_eq_true] at h; exact h.2

theorem rowsCanonical_head {r : CodeRow} {rs : List CodeRow} (h : rowsCanonical (r :: rs) = true) : r.lo ≤ r.hi := by
  cases rs with
  | nil => simpa [rowsCanonical] using h
  | cons r' rs => simp only [rowsCanonical, Bool.and_eq_true, decide_eq_true_eq] at h; exact h.1.1

/-- In canonical rows, every later row lies above the first. -/
theorem rowsCanonical_above {r : CodeRow} {rs : List CodeRow} (h : rowsCanonical (r :: rs) = true) :
    ∀ q ∈ rs, r.hi < q.lo := by
  induction rs generalizing r with
  | nil => simp
  | cons r' rs ih =>
    intro q hq
    have h' := rowsCanonical_tail h
    have hlt : r.hi < r'.lo := by
      simp only [rowsCanonical, Bool.and_eq_true, decide_eq_true_eq] at h; exact h.1.2
    rcases List.mem_cons.1 hq with rfl | hq
    · exact hlt
    · have h1 := rowsCanonical_head h'
      have h2 := ih h' q hq
      simp only [BitVec.lt_def, BitVec.le_def] at *
      omega

/-- In canonical rows, the first value of every row has the row's code: no row is hidden by another. -/
theorem findCode_lo {rows : List CodeRow} (h : rowsCanonical rows = true) {r : CodeRow} (hr : r ∈ rows) :
    findCode rows r.lo = some r.sym := by
  induction rows with
  | nil => simp at hr
  | cons q qs ih =>
    rcases List.mem_cons.1 hr with rfl | hr
    · simp [findCode, rowsCanonical_head h]
    · have := rowsCanonical_above h r hr
      simp [findCode, BitVec.not_le.2 this, ih (rowsCanonical_tail h) hr]

/-- A property of the codes of canonical rows is a property of the function's values. -/
theorem findCode_forall {rows : List CodeRow} (h : rowsCanonical rows = true) (p : Nat → Prop) :
    (∀ r ∈ rows, p r.sym) ↔ ∀ v i, findCode rows v = some i → p i := by
  constructor
  · intro hp v i hv
    obtain ⟨r, hr, -, -, rfl⟩ := findCode_some hv
    exact hp r hr
  · intro hp r hr
    exact hp _ _ (findCode_lo h hr)

/-- "There is a minimum match length `MIN_LEN >= 1`" (00_scope.md R6 e) says that length 0 has no code. -/
theorem minLen_exists_iff (c : Config) :
    (∃ m : Nat, 1 ≤ m ∧ ∀ l : HalfWord, l.toNat < m → c.lenSym l = none) ↔ c.lenSym 0 = none := by
  constructor
  · rintro ⟨m, hm, h⟩
    exact h 0 (by simp; omega)
  · intro h
    refine ⟨1, le_rfl, fun l hl => ?_⟩
    have : l = 0 := BitVec.eq_of_toNat_eq (by simp; omega)
    rw [this, h]

/-- What a well-formed configuration gives about a length code (00_scope.md R6 c). -/
theorem Config.lenSym_bounds {c : Config} (h : c.wf = true) {l : HalfWord} {i : Nat} (hl : c.lenSym l = some i) :
    256 ≤ i ∧ i < c.numLitlenLive ∧ i ≠ c.eobIndex := by
  simp only [Config.wf, Bool.and_eq_true] at h
  have h3 := h.1.1.1.1.2
  simp only [Config.lenCodesOk, Bool.and_eq_true, List.all_eq_true, decide_eq_true_eq] at h3
  obtain ⟨r, hr, -, -, rfl⟩ := findCode_some hl
  have := h3.2 r hr
  exact ⟨this.1.1, this.1.2, this.2⟩

/-- What a well-formed configuration gives about a distance code (00_scope.md R6 d). -/
theorem Config.distSym_bound {c : Config} (h : c.wf = true) {d : HalfWord} {i : Nat} (hd : c.distSym d = some i) :
    i < c.numDist := by
  simp only [Config.wf, Bool.and_eq_true] at h
  have h4 := h.1.1.1.2
  simp only [Config.distCodesOk, Bool.and_eq_true, List.all_eq_true, decide_eq_true_eq] at h4
  obtain ⟨r, hr, -, -, rfl⟩ := findCode_some hd
  exact h4.2 r hr

/-- The numeric clauses of 00_scope.md R6 (a), (b), (f), (g). -/
theorem Config.wf_numbers {c : Config} (h : c.wf = true) :
    c.numLitlenLive = c.numLitlenRaw - 2 ∧ 258 ≤ c.numLitlenLive ∧ 256 ≤ c.eobIndex ∧ c.eobIndex < c.numLitlenLive ∧
      2 ≤ c.depth ∧ c.depth ≤ 2 ^ c.cntW - 1 ∧ c.cmfConst = 0x78 := by
  simp only [Config.wf, Config.sizesOk, Config.eobOk, Config.depthOk, Config.cmfOk, Bool.and_eq_true,
    decide_eq_true_eq] at h
  obtain ⟨⟨⟨⟨⟨⟨h1, h2⟩, -⟩, -⟩, -⟩, h3⟩, h4⟩ := h
  exact ⟨h1.1, h1.2, h2.1, h2.2, h3.1, h3.2, h4⟩

/-- Well-formedness does not depend on `MODE`. -/
theorem Config.wf_withMode (c : Config) (m : Mode) : Config.wf { c with mode := m } = c.wf := rfl

@[simp] theorem Config.seededLL_length (c : Config) : c.seededLL.length = c.numLitlenRaw := by simp [Config.seededLL]

@[simp] theorem Config.seededD_length (c : Config) : c.seededD.length = c.numDist := by simp [Config.seededD]

theorem Config.seededLL_get (c : Config) {i : Nat} (h : i < c.numLitlenRaw) :
    c.seededLL[i]? = some (if i = c.eobIndex then 1 else 0) := by
  simp [Config.seededLL, h]

theorem Config.seededD_get (c : Config) {i : Nat} (h : i < c.numDist) : c.seededD[i]? = some 0 := by
  simp [Config.seededD, h]

end Sys2Proof
end

