-- ==== Sys2Proof/Laws/State.lean ====
section
/-! SUPPORT. One lemma per field per update of Recorder and of State, each true by rfl, so that no later proof unfolds a
record update; and the fields of the state after hardware reset. -/

namespace Sys2Proof.Machine

variable (r : Recorder) (s : State)

@[simp] theorem Recorder.setFault_tok (c : CauseCode) : (r.setFault c).tok = r.tok := rfl
@[simp] theorem Recorder.setFault_llFreq (c : CauseCode) : (r.setFault c).llFreq = r.llFreq := rfl
@[simp] theorem Recorder.setFault_dFreq (c : CauseCode) : (r.setFault c).dFreq = r.dFreq := rfl
@[simp] theorem Recorder.setFault_fault (c : CauseCode) : (r.setFault c).fault = true := rfl
@[simp] theorem Recorder.setFault_cause (c : CauseCode) : (r.setFault c).cause = c := rfl

@[simp] theorem Recorder.append_tok (ws : List TokenWord) : (r.append ws).tok = r.tok ++ ws := rfl
@[simp] theorem Recorder.append_llFreq (ws : List TokenWord) : (r.append ws).llFreq = r.llFreq := rfl
@[simp] theorem Recorder.append_dFreq (ws : List TokenWord) : (r.append ws).dFreq = r.dFreq := rfl
@[simp] theorem Recorder.append_fault (ws : List TokenWord) : (r.append ws).fault = r.fault := rfl
@[simp] theorem Recorder.append_cause (ws : List TokenWord) : (r.append ws).cause = r.cause := rfl

@[simp] theorem Recorder.setTables_tok (ll d : List Nat) : (r.setTables ll d).tok = r.tok := rfl
@[simp] theorem Recorder.setTables_llFreq (ll d : List Nat) : (r.setTables ll d).llFreq = ll := rfl
@[simp] theorem Recorder.setTables_dFreq (ll d : List Nat) : (r.setTables ll d).dFreq = d := rfl
@[simp] theorem Recorder.setTables_fault (ll d : List Nat) : (r.setTables ll d).fault = r.fault := rfl
@[simp] theorem Recorder.setTables_cause (ll d : List Nat) : (r.setTables ll d).cause = r.cause := rfl

@[simp] theorem Recorder.seed_tok (c : Config) : (r.seed c).tok = [] := rfl
@[simp] theorem Recorder.seed_llFreq (c : Config) : (r.seed c).llFreq = c.seededLL := rfl
@[simp] theorem Recorder.seed_dFreq (c : Config) : (r.seed c).dFreq = c.seededD := rfl
@[simp] theorem Recorder.seed_fault (c : Config) : (r.seed c).fault = r.fault := rfl
@[simp] theorem Recorder.seed_cause (c : Config) : (r.seed c).cause = r.cause := rfl

@[simp] theorem Recorder.initial_tok (c : Config) : (Recorder.initial c).tok = [] := rfl
@[simp] theorem Recorder.initial_llFreq (c : Config) : (Recorder.initial c).llFreq = c.seededLL := rfl
@[simp] theorem Recorder.initial_dFreq (c : Config) : (Recorder.initial c).dFreq = c.seededD := rfl
@[simp] theorem Recorder.initial_fault (c : Config) : (Recorder.initial c).fault = false := rfl
@[simp] theorem Recorder.initial_cause (c : Config) : (Recorder.initial c).cause = 0 := rfl

@[simp] theorem State.answer_toRecorder (p : Response) :
    (s.answer r p).toRecorder = r := rfl
@[simp] theorem State.answer_cfg (p : Response) :
    (s.answer r p).cfg = s.cfg := rfl
@[simp] theorem State.answer_inputs (p : Response) :
    (s.answer r p).inputs = s.inputs := rfl
@[simp] theorem State.answer_responses (p : Response) :
    (s.answer r p).responses = s.responses ++ [p] := rfl
@[simp] theorem State.answer_headers (p : Response) :
    (s.answer r p).headers = s.headers := rfl

@[simp] theorem State.answerHeader_toRecorder (h : HeaderWord) :
    (s.answerHeader h).toRecorder = s.toRecorder := rfl
@[simp] theorem State.answerHeader_cfg (h : HeaderWord) :
    (s.answerHeader h).cfg = s.cfg := rfl
@[simp] theorem State.answerHeader_inputs (h : HeaderWord) :
    (s.answerHeader h).inputs = s.inputs := rfl
@[simp] theorem State.answerHeader_responses (h : HeaderWord) :
    (s.answerHeader h).responses = s.responses := rfl
@[simp] theorem State.answerHeader_headers (h : HeaderWord) :
    (s.answerHeader h).headers = s.headers ++ [h] := rfl

@[simp] theorem State.afterHardwareReset_toRecorder (mode : Mode) :
    (s.afterHardwareReset mode).toRecorder = Recorder.initial s.cfg := rfl
@[simp] theorem State.afterHardwareReset_cfg (mode : Mode) :
    (s.afterHardwareReset mode).cfg = { s.cfg with mode := mode } := rfl
@[simp] theorem State.afterHardwareReset_inputs (mode : Mode) :
    (s.afterHardwareReset mode).inputs = s.inputs := rfl
@[simp] theorem State.afterHardwareReset_responses (mode : Mode) :
    (s.afterHardwareReset mode).responses = s.responses := rfl
@[simp] theorem State.afterHardwareReset_headers (mode : Mode) :
    (s.afterHardwareReset mode).headers = s.headers := rfl

@[simp] theorem State.initial_toRecorder (c : Config) :
    (State.initial c).toRecorder = Recorder.initial c := rfl
@[simp] theorem State.initial_cfg (c : Config) :
    (State.initial c).cfg = c := rfl
@[simp] theorem State.initial_inputs (c : Config) :
    (State.initial c).inputs = [] := rfl
@[simp] theorem State.initial_responses (c : Config) :
    (State.initial c).responses = [] := rfl
@[simp] theorem State.initial_headers (c : Config) :
    (State.initial c).headers = [] := rfl

end Sys2Proof.Machine
end

