-- ==== Sys2Proof/Laws/Ops.lean ====
section
/-! SUPPORT. One lemma per shared operation: everything it can do. Proofs cite these and do not unfold the operations. -/

namespace Sys2Proof.Machine

theorem whenWellFormed_of_wf {s : State} {o : Result} (h : s.cfg.wf = true) : whenWellFormed s o = o := by
  simp [whenWellFormed, h]

theorem whenWellFormed_illFormed {s : State} {o : Result} (h : s.cfg.wf = false) :
    whenWellFormed s o = .refused .illFormedConfig := by
  simp [whenWellFormed, h]

/-- A next state behind the configuration check comes from a well-formed configuration. -/
theorem whenWellFormed_next {s t : State} {o : Result} (h : whenWellFormed s o = .next t) :
    s.cfg.wf = true ∧ o = .next t := by
  unfold whenWellFormed at h
  split at h
  · exact ⟨‹_›, h⟩
  · cases h

/-- The prologue lets a command of an operating unit through. -/
theorem prologue_of_good {r : Recorder} {o : CommandResult} (hf : r.fault = false) : prologue r o = o := by
  simp [prologue, hf]

/-- The prologue refuses a command in the fault state. -/
theorem prologue_of_faulted {r : Recorder} {o : CommandResult} (hf : r.fault = true) :
    prologue r o = .ok (r, errResponse r.cause) := by
  simp [prologue, refuseFaulted, hf]

/-- What a command can do that completes its step: it is refused in the fault state, or its own rule answers. -/
theorem prologue_ok {r r' : Recorder} {p : Response} {o : CommandResult} (h : prologue r o = .ok (r', p)) :
    (r.fault = true ∧ r' = r ∧ p = errResponse r.cause) ∨ (r.fault = false ∧ o = .ok (r', p)) := by
  unfold prologue at h
  split at h
  · obtain ⟨rfl, rfl⟩ := Prod.mk.inj (Except.ok.inj h)
    exact .inl ⟨‹_›, rfl, rfl⟩
  · rename_i hf
    exact .inr ⟨by simpa using hf, h⟩

/-- A next state that delivers an outcome comes from a completed step. -/
theorem deliver_next {s t : State} {o : CommandResult} (h : deliver s o = .next t) :
    ∃ r p, o = .ok (r, p) ∧ t = s.answer r p := by
  match o, h with
  | .ok (r, p), h => exact ⟨r, p, rfl, (Host.Outcome.next.inj h).symm⟩
  | .error _, h => cases h

/-- A command under a well-formed configuration is its rule, delivered. -/
theorem recorderCommand_of_wf {s : State} {rule : Config → Recorder → CommandResult} (h : s.cfg.wf = true) :
    recorderCommand s rule = deliver s (rule s.cfg s.toRecorder) := whenWellFormed_of_wf h

/-- A command that answers a next state does so by its rule. -/
theorem recorderCommand_next {s t : State} {rule : Config → Recorder → CommandResult}
    (h : recorderCommand s rule = .next t) :
    s.cfg.wf = true ∧ ∃ r p, rule s.cfg s.toRecorder = .ok (r, p) ∧ t = s.answer r p := by
  obtain ⟨hwf, h⟩ := whenWellFormed_next h
  exact ⟨hwf, deliver_next h⟩

theorem raise_eq (x : Cause) (r : Recorder) : raise x r = .ok (r.setFault x.code, errResponse x.code) := rfl

/-- No cause has the code `NONE`, and none has a reserved code (60_exceptions.md R73). -/
theorem Cause.code_bounds (x : Cause) : 1 ≤ x.code.toNat ∧ x.code.toNat ≤ 4 := by cases x <;> decide

/-- A counter stays inside its width. -/
theorem countUp_lt (cntW v : Nat) : countUp cntW v < 2 ^ cntW := by
  unfold countUp
  split
  · assumption
  · exact Nat.mod_lt _ (Nat.two_pow_pos _)

/-- A counter that is not full counts up by one. -/
theorem countUp_eq {cntW v : Nat} (h : v + 1 < 2 ^ cntW) : countUp cntW v = v + 1 := by simp [countUp, h]

/-- A counter update keeps the size of its table. -/
theorem countIn_length {w : Nat} {sp : Space} {table table' : List Nat} {i : Option Nat}
    (h : countIn w sp table i = .ok table') : table'.length = table.length := by
  unfold countIn at h
  split at h
  · cases h; rfl
  · split at h
    · cases h; simp
    · cases h

/-- A counter update of an entry that exists succeeds, and says which. -/
theorem countIn_some {w : Nat} {sp : Space} {table : List Nat} {i v : Nat} (h : table[i]? = some v) :
    countIn w sp table (some i) = .ok (table.set i (countUp w v)) := by
  simp [countIn, h]

/-- A counter update changes no other entry. -/
theorem countIn_other {w : Nat} {sp : Space} {table table' : List Nat} {i : Option Nat}
    (h : countIn w sp table i = .ok table') {j : Nat} (hj : i ≠ some j) : table'[j]? = table[j]? := by
  unfold countIn at h
  split at h
  · cases h; rfl
  · split at h
    · cases h
      exact List.getElem?_set_ne (fun hij => hj (by simp [hij]))
    · cases h

/-- A counter update stops only at an entry the storage does not have. -/
theorem countIn_error {w : Nat} {sp : Space} {table : List Nat} {i : Option Nat} {e : Fault}
    (h : countIn w sp table i = .error e) : ∃ k, i = some k ∧ table.length ≤ k ∧ e = .noSuchEntry sp k := by
  unfold countIn at h
  split at h
  · cases h
  · rename_i k
    split at h
    · cases h
    · rename_i hk
      exact ⟨k, rfl, by simpa using hk, (Except.error.inj h).symm⟩

theorem readFirst_eq {sp : Space} {table : List Nat} {n : Nat} (h : n ≤ table.length) :
    readFirst sp table n = .ok (table.take n) := by
  simp [readFirst, h]

/-- A table read stops only at an entry the storage does not have. -/
theorem readFirst_error {sp : Space} {table : List Nat} {n : Nat} {e : Fault} (h : readFirst sp table n = .error e) :
    table.length < n := by
  unfold readFirst at h
  split at h
  · cases h
  · omega

/-- What recording tokens can do: the words are appended and the command answers OK; in Plain mode the tables stay, in
Statistical mode each counts up. -/
theorem recordTokens_ok {c : Config} {r r' : Recorder} {p : Response} {ws : List TokenWord} {ll d : Option Nat}
    (h : recordTokens c r ws ll d = .ok (r', p)) :
    p = okResponse {} ∧
      ((c.mode = .plain ∧ r' = r.append ws) ∨
       (c.mode = .statistical ∧ ∃ llFreq dFreq, countIn c.cntW .llFreq r.llFreq ll = .ok llFreq ∧
         countIn c.cntW .dFreq r.dFreq d = .ok dFreq ∧ r' = (r.append ws).setTables llFreq dFreq)) := by
  unfold recordTokens at h
  split at h
  · obtain ⟨rfl, rfl⟩ := Prod.mk.inj (Except.ok.inj h)
    exact ⟨rfl, .inl ⟨‹_›, rfl⟩⟩
  · split at h
    · cases h
    · split at h
      · cases h
      · obtain ⟨rfl, rfl⟩ := Prod.mk.inj (Except.ok.inj h)
        exact ⟨rfl, .inr ⟨‹_›, _, _, ‹_›, ‹_›, rfl⟩⟩

/-- RST leaves tables of the configured sizes. -/
theorem Recorder.seed_shaped (r : Recorder) (c : Config) :
    (r.seed c).llFreq.length = c.numLitlenRaw ∧ (r.seed c).dFreq.length = c.numDist := by simp

end Sys2Proof.Machine
end

