-- ==== Sys2Proof/Laws/Exec.lean ====
section
/-! SUPPORT. One inversion lemma per instruction and per way in: every case in which it answers a next state. Proofs about a
step cite these and do not unfold the meanings. -/

namespace Sys2Proof.Machine

/-- The state a raised cause leaves (60_exceptions.md R79). -/
abbrev faultedWith (x : Cause) (s : State) : State := s.answer (s.toRecorder.setFault x.code) (errResponse x.code)

/-- The state a refused command leaves (60_exceptions.md R80). -/
abbrev refusedIn (s : State) : State := s.answer s.toRecorder (errResponse s.cause)

/-- What delivering recorded tokens can do that answers a next state (`recordTokens_ok`). -/
theorem recordTokens_next {s t : State} {ws : List TokenWord} {ll d : Option Nat}
    (h : deliver s (recordTokens s.cfg s.toRecorder ws ll d) = .next t) :
    (s.cfg.mode = .plain ∧ t = s.answer (s.toRecorder.append ws) (okResponse {})) ∨
    (s.cfg.mode = .statistical ∧ ∃ llFreq dFreq, countIn s.cfg.cntW .llFreq s.llFreq ll = .ok llFreq ∧
      countIn s.cfg.cntW .dFreq s.dFreq d = .ok dFreq ∧
      t = s.answer ((s.toRecorder.append ws).setTables llFreq dFreq) (okResponse {})) := by
  obtain ⟨r, p, ho, rfl⟩ := deliver_next h
  obtain ⟨rfl, ⟨hm, rfl⟩ | ⟨hm, ll, d, h1, h2, rfl⟩⟩ := recordTokens_ok ho
  · exact .inl ⟨hm, rfl⟩
  · exact .inr ⟨hm, ll, d, h1, h2, rfl⟩

/-- A command whose rule has the prologue: refused in the fault state, or its own rule delivered. -/
theorem command_next {s t : State} {rule : Config → Recorder → CommandResult} {o : CommandResult}
    (h : recorderCommand s rule = .next t) (ho : rule s.cfg s.toRecorder = prologue s.toRecorder o) :
    s.cfg.wf = true ∧ ((s.fault = true ∧ t = refusedIn s) ∨ (s.fault = false ∧ deliver s o = .next t)) := by
  obtain ⟨hwf, r, p, hr, rfl⟩ := recorderCommand_next h
  refine ⟨hwf, ?_⟩
  rw [ho] at hr
  obtain ⟨hf, rfl, rfl⟩ | ⟨hf, rfl⟩ := prologue_ok hr
  · exact .inl ⟨hf, rfl⟩
  · exact .inr ⟨hf, rfl⟩

/-- A command whose rule has the prologue, in an operating unit. -/
theorem command_of_good {s : State} {rule : Config → Recorder → CommandResult} {o : CommandResult}
    (h : s.cfg.wf = true) (hf : s.fault = false) (ho : rule s.cfg s.toRecorder = prologue s.toRecorder o) :
    recorderCommand s rule = deliver s o := by
  rw [recorderCommand_of_wf h, ho, prologue_of_good hf]

/-- A command whose rule has the prologue, in the fault state. -/
theorem command_of_faulted {s : State} {rule : Config → Recorder → CommandResult} {o : CommandResult}
    (h : s.cfg.wf = true) (hf : s.fault = true) (ho : rule s.cfg s.toRecorder = prologue s.toRecorder o) :
    recorderCommand s rule = .next (refusedIn s) := by
  rw [recorderCommand_of_wf h, ho, prologue_of_faulted hf]
  rfl

theorem exec_wlit_next {b : Byte} {s t : State} (h : exec (.wlit b) s = .next t) :
    s.cfg.wf = true ∧
      ((s.fault = true ∧ t = refusedIn s) ∨
       (s.fault = false ∧ s.cfg.depth < s.tokCount + 1 ∧ t = faultedWith .overflow s) ∨
       (s.fault = false ∧ s.tokCount + 1 ≤ s.cfg.depth ∧
         deliver s (recordTokens s.cfg s.toRecorder [litWord b] (some (literalIndex b)) none) = .next t)) := by
  obtain ⟨hwf, h | ⟨hf, h⟩⟩ := command_next h rfl
  · exact ⟨hwf, .inl h⟩
  · refine ⟨hwf, .inr ?_⟩
    split at h
    · exact .inl ⟨hf, ‹_›, (Host.Outcome.next.inj h).symm⟩
    · rename_i hd
      exact .inr ⟨hf, by omega, h⟩

theorem exec_wld_next {l d : HalfWord} {s t : State} (h : exec (.wld l d) s = .next t) :
    s.cfg.wf = true ∧
      ((s.fault = true ∧ t = refusedIn s) ∨
       (s.fault = false ∧ s.cfg.lenSym l = none ∧ t = faultedWith .badLength s) ∨
       (s.fault = false ∧ ∃ ls, s.cfg.lenSym l = some ls ∧ s.cfg.distSym d = none ∧ t = faultedWith .badDistance s) ∨
       (s.fault = false ∧ ∃ ls ds, s.cfg.lenSym l = some ls ∧ s.cfg.distSym d = some ds ∧
         s.cfg.depth < s.tokCount + 2 ∧ t = faultedWith .overflow s) ∨
       (s.fault = false ∧ ∃ ls ds, s.cfg.lenSym l = some ls ∧ s.cfg.distSym d = some ds ∧
         s.tokCount + 2 ≤ s.cfg.depth ∧
         deliver s (recordTokens s.cfg s.toRecorder [lenWord l, distWord d] (some ls) (some ds)) = .next t)) := by
  obtain ⟨hwf, h | ⟨hf, h⟩⟩ := command_next h rfl
  · exact ⟨hwf, .inl h⟩
  · refine ⟨hwf, .inr ?_⟩
    split at h
    · exact .inl ⟨hf, ‹_›, (Host.Outcome.next.inj h).symm⟩
    · split at h
      · exact .inr (.inl ⟨hf, _, ‹_›, ‹_›, (Host.Outcome.next.inj h).symm⟩)
      · split at h
        · exact .inr (.inr (.inl ⟨hf, _, _, ‹_›, ‹_›, ‹_›, (Host.Outcome.next.inj h).symm⟩))
        · rename_i hd
          exact .inr (.inr (.inr ⟨hf, _, _, ‹_›, ‹_›, by omega, h⟩))

theorem exec_rst_next {s t : State} (h : exec .rst s = .next t) :
    s.cfg.wf = true ∧
      ((s.fault = true ∧ t = refusedIn s) ∨
       (s.fault = false ∧ t = s.answer (s.toRecorder.seed s.cfg) (okResponse {}))) := by
  obtain ⟨hwf, h | ⟨hf, h⟩⟩ := command_next h rfl
  · exact ⟨hwf, .inl h⟩
  · exact ⟨hwf, .inr ⟨hf, (Host.Outcome.next.inj h).symm⟩⟩

theorem exec_snap_next {s t : State} (h : exec .snap s = .next t) :
    s.cfg.wf = true ∧
      ((s.fault = true ∧ t = refusedIn s) ∨
       (s.fault = false ∧ s.cfg.mode = .plain ∧ t = faultedWith .badCmd s) ∨
       (s.fault = false ∧ s.cfg.mode = .statistical ∧ s.cfg.numLitlenLive ≤ s.llFreq.length ∧
         s.cfg.numDist ≤ s.dFreq.length ∧
         t = s.answer s.toRecorder
           (okResponse { ll := s.llFreq.take s.cfg.numLitlenLive, dd := s.dFreq.take s.cfg.numDist }))) := by
  obtain ⟨hwf, h | ⟨hf, h⟩⟩ := command_next h rfl
  · exact ⟨hwf, .inl h⟩
  · refine ⟨hwf, .inr ?_⟩
    split at h
    · exact .inl ⟨hf, ‹_›, (Host.Outcome.next.inj h).symm⟩
    · refine .inr ⟨hf, ‹_›, ?_⟩
      simp only [readFirst] at h
      split at h
      · cases h
      · split at h
        · cases h
        · rename_i h1 _ _ h2
          split at h1 <;> cases h1
          split at h2 <;> cases h2
          exact ⟨‹_›, ‹_›, (Host.Outcome.next.inj h).symm⟩

theorem exec_drain_next {s t : State} (h : exec .drain s = .next t) :
    s.cfg.wf = true ∧
      ((s.fault = true ∧ t = refusedIn s) ∨
       (s.fault = false ∧ t = s.answer s.toRecorder (okResponse { tokens := s.tok }))) := by
  obtain ⟨hwf, h | ⟨hf, h⟩⟩ := command_next h rfl
  · exact ⟨hwf, .inl h⟩
  · exact ⟨hwf, .inr ⟨hf, (Host.Outcome.next.inj h).symm⟩⟩

theorem exec_hdr_next {level : HeaderRequest} {s t : State} (h : exec (.hdr level) s = .next t) :
    s.cfg.wf = true ∧ t = s.answerHeader (buildHeader s.cfg.cmfConst level) := by
  obtain ⟨hwf, h⟩ := whenWellFormed_next h
  exact ⟨hwf, (Host.Outcome.next.inj h).symm⟩

theorem illegalCommand_next {s t : State} (h : illegalCommand s = .next t) :
    s.cfg.wf = true ∧
      ((s.fault = true ∧ t = refusedIn s) ∨ (s.fault = false ∧ t = faultedWith .badCmd s)) := by
  obtain ⟨hwf, h | ⟨hf, h⟩⟩ := command_next h rfl
  · exact ⟨hwf, .inl h⟩
  · exact ⟨hwf, .inr ⟨hf, (Host.Outcome.next.inj h).symm⟩⟩

theorem hardwareReset_next {s t : State} {m : Mode} (h : hardwareReset s m = .next t) :
    s.cfg.wf = true ∧ t = s.afterHardwareReset m := by
  obtain ⟨hwf, h⟩ := whenWellFormed_next h
  exact ⟨hwf, (Host.Outcome.next.inj h).symm⟩

/-- What a step can do that answers a next state: nothing, or one event. -/
theorem step_next {s t : State} (h : step s = .next t) :
    (s.inputs = [] ∧ t = s) ∨ ∃ e rest, s.inputs = e :: rest ∧ acceptEvent e { s with inputs := rest } = .next t := by
  unfold step serveNext at h
  split at h
  · exact .inl ⟨‹_›, (Host.Outcome.next.inj h).symm⟩
  · exact .inr ⟨_, _, ‹_›, h⟩

/-- What an event can do: it executes a decoded instruction, it is an illegal command word, or it is hardware reset. -/
theorem acceptEvent_cases (e : Event) (s : State) :
    (∃ p i, e = .present p ∧ decode p = .ok i ∧ acceptEvent e s = exec i s) ∨
    (∃ w r, e = .present (.command w) ∧ decodeCommand w = .error r ∧ acceptEvent e s = illegalCommand s) ∨
    (∃ m a, e = .hardwareReset m a ∧ acceptEvent e s = hardwareReset s m) := by
  cases e with
  | present p =>
    cases hd : decode p with
    | ok i => exact .inl ⟨p, i, rfl, hd, by simp [acceptEvent, acceptWord, hd]⟩
    | error r =>
      cases p with
      | command w => exact .inr (.inl ⟨w, r, rfl, hd, by simp [acceptEvent, acceptWord, hd]⟩)
      | header l => simp [decode] at hd
  | hardwareReset m a => exact .inr (.inr ⟨m, a, rfl, rfl⟩)

theorem acceptCommand_ok {w : CommandWord} {i : Instr} (s : State) (h : decodeCommand w = .ok i) :
    acceptCommand w s = exec i s := by
  simp [acceptCommand, acceptWord, decode, h]

theorem acceptCommand_error {w : CommandWord} {r : Illegal} (s : State) (h : decodeCommand w = .error r) :
    acceptCommand w s = illegalCommand s := by
  simp [acceptCommand, acceptWord, decode, h]

end Sys2Proof.Machine
end

