-- ==== Sys2Proof/Laws/Operands.lean ====
section
/-! SUPPORT. The fields of a token word and a consumer's reading of the words the unit writes (30_encoding.md R50, R51). -/

namespace Sys2Proof.Machine

theorem tokenWord_toNat (tag : BitVec 2) (val : HalfWord) : (tokenWord tag val).toNat = tag.toNat * 2 ^ 16 + val.toNat := by
  have h : (tokenWord tag val).toNat = tag.toNat <<< 16 ||| val.toNat := BitVec.toNat_append _ _
  rw [h, ← Nat.shiftLeft_add_eq_or_of_lt val.isLt, Nat.shiftLeft_eq]

@[simp] theorem tag_tokenWord (tag : BitVec 2) (val : HalfWord) : (tokenWord tag val).extractLsb' 16 2 = tag := by
  apply BitVec.eq_of_toNat_eq
  simp only [BitVec.extractLsb'_toNat, tokenWord_toNat, Nat.shiftRight_eq_div_pow]
  have := val.isLt
  have := tag.isLt
  omega

@[simp] theorem val_tokenWord (tag : BitVec 2) (val : HalfWord) : (tokenWord tag val).extractLsb' 0 16 = val := by
  apply BitVec.eq_of_toNat_eq
  simp only [BitVec.extractLsb'_toNat, tokenWord_toNat, Nat.shiftRight_eq_div_pow]
  have := val.isLt
  omega

@[simp] theorem tag_litWord (b : Byte) : (litWord b).extractLsb' 16 2 = 0b00 := tag_tokenWord _ _

@[simp] theorem tag_lenWord (l : HalfWord) : (lenWord l).extractLsb' 16 2 = 0b01 := tag_tokenWord _ _

@[simp] theorem tag_distWord (d : HalfWord) : (distWord d).extractLsb' 16 2 = 0b10 := tag_tokenWord _ _

@[simp] theorem val_lenWord (l : HalfWord) : (lenWord l).extractLsb' 0 16 = l := val_tokenWord _ _

@[simp] theorem val_distWord (d : HalfWord) : (distWord d).extractLsb' 0 16 = d := val_tokenWord _ _

@[simp] theorem readToken_litWord (b : Byte) : readToken (litWord b) = some (.literal b) := by
  have h1 : (b.setWidth 16).extractLsb' 8 8 = (0 : BitVec 8) := by
    apply BitVec.eq_of_toNat_eq
    simp [BitVec.extractLsb'_toNat, Nat.shiftRight_eq_div_pow]
    omega
  have h2 : (b.setWidth 16).extractLsb' 0 8 = b := by
    apply BitVec.eq_of_toNat_eq
    simp [BitVec.extractLsb'_toNat]
    omega
  simp only [readToken, litWord, tag_tokenWord, val_tokenWord, h1, h2, if_true]

@[simp] theorem readToken_lenWord (l : HalfWord) : readToken (lenWord l) = some (.length l) := by
  simp [readToken, lenWord]

@[simp] theorem readToken_distWord (d : HalfWord) : readToken (distWord d) = some (.distance d) := by
  simp [readToken, distWord]

end Sys2Proof.Machine
end

