-- ==== Sys2Proof/Laws/PerInstr.lean ====
section
/-! SUPPORT. Per-instruction facts: the word of an instruction, and the row of 30_encoding.md R47 it has. -/

namespace Sys2Proof.Laws

/-- The word of the instruction is selected by its own row of 30_encoding.md R47; a Header request has no row there. -/
def OwnRow.Statement (i : Instr) : Prop :=
  match encode i with
  | .command w => ∃ r ∈ commandTable, r.mnemonic = i.mnemonic ∧ w &&& r.mask = r.pattern
  | .header level => i = .hdr level

theorem OwnRow.wlit (b : Byte) : OwnRow.Statement (.wlit b) := by
  refine ⟨⟨"WLIT", 0x100000000, 0x7FFFFFF00⟩, by simp [commandTable], rfl, ?_⟩
  apply BitVec.eq_of_getLsbD_eq
  intro i hi
  rw [BitVec.getLsbD_and, commandWord_getLsbD]
  interval_cases i <;> simp

theorem OwnRow.wld (length distance : HalfWord) : OwnRow.Statement (.wld length distance) := by
  refine ⟨⟨"WLD", 0x200000000, 0x700000000⟩, by simp [commandTable], rfl, ?_⟩
  apply BitVec.eq_of_getLsbD_eq
  intro i hi
  rw [BitVec.getLsbD_and, commandWord_getLsbD]
  interval_cases i <;> simp

theorem OwnRow.rst : OwnRow.Statement .rst :=
  ⟨⟨"RST", 0x300000000, 0x7FFFFFFFF⟩, by simp [commandTable], rfl, by decide⟩

theorem OwnRow.snap : OwnRow.Statement .snap :=
  ⟨⟨"SNAP", 0x400000000, 0x7FFFFFFFF⟩, by simp [commandTable], rfl, by decide⟩

theorem OwnRow.drain : OwnRow.Statement .drain :=
  ⟨⟨"DRAIN", 0x500000000, 0x7FFFFFFFF⟩, by simp [commandTable], rfl, by decide⟩

theorem OwnRow.hdr (level : HeaderRequest) : OwnRow.Statement (.hdr level) := rfl

end Sys2Proof.Laws
end

