-- ==== Sys2Proof/Laws/Safety.lean ====
section
/-! SUPPORT. The terms of Safety.lean: where the words of a write count, what the invariants look at, and that every
operation keeps the sizes of the tables. -/

namespace Sys2Proof.Machine

@[simp] theorem llIndexOf_litWord (c : Config) (b : Byte) : llIndexOf c (litWord b) = some b.toNat := by
  simp [llIndexOf, literalIndex]

@[simp] theorem llIndexOf_lenWord (c : Config) (l : HalfWord) : llIndexOf c (lenWord l) = c.lenSym l := by simp [llIndexOf]

@[simp] theorem llIndexOf_distWord (c : Config) (d : HalfWord) : llIndexOf c (distWord d) = none := by simp [llIndexOf]

@[simp] theorem distIndexOf_litWord (c : Config) (b : Byte) : distIndexOf c (litWord b) = none := by simp [distIndexOf]

@[simp] theorem distIndexOf_lenWord (c : Config) (l : HalfWord) : distIndexOf c (lenWord l) = none := by simp [distIndexOf]

@[simp] theorem distIndexOf_distWord (c : Config) (d : HalfWord) : distIndexOf c (distWord d) = c.distSym d := by
  simp [distIndexOf]

@[simp] theorem occurrences_nil (index : TokenWord → Option Nat) (i : Nat) : occurrences index [] i = 0 := rfl

theorem occurrences_append (index : TokenWord → Option Nat) (ws vs : List TokenWord) (i : Nat) :
    occurrences index (ws ++ vs) i = occurrences index ws i + occurrences index vs i := by
  simp [occurrences]

/-- The invariants look at the six elements of 10_state.md R13 and the configuration only. -/
theorem State.Inv.of_eq {s t : State} (hi : s.Inv) (h1 : t.cfg = s.cfg) (h2 : t.tok = s.tok) (h3 : t.llFreq = s.llFreq)
    (h4 : t.dFreq = s.dFreq) (h5 : t.cause = 0 ↔ t.fault = false) (h6 : t.cause.toNat ≤ 4) : t.Inv := by
  obtain ⟨a, b, c, d, e, f, g, h, i⟩ := hi
  constructor <;> simp only [h1, h2, h3, h4, Recorder.tokCount, State.Shaped] at * <;> assumption

/-- Writing the sum at an entry that exists is counting it up. -/
theorem set_succ_eq_modify {t : List Nat} {i v : Nat} (h : t[i]? = some v) : t.set i (v + 1) = t.modify i (· + 1) := by
  apply List.ext_getElem?
  intro j
  obtain ⟨hi, rfl⟩ := List.getElem?_eq_some_iff.1 h
  by_cases hj : i = j
  · subst hj
    simp [hi]
  · simp [hj]

/-- Recording tokens keeps the sizes of the tables. -/
theorem recordTokens_shaped {s t : State} {ws : List TokenWord} {ll d : Option Nat} (hs : s.Shaped)
    (h : deliver s (recordTokens s.cfg s.toRecorder ws ll d) = .next t) : t.Shaped := by
  obtain ⟨-, rfl⟩ | ⟨-, _, _, h1, h2, rfl⟩ := recordTokens_next h
  · exact hs
  · exact ⟨(countIn_length h1).trans hs.1, (countIn_length h2).trans hs.2⟩

/-- Every instruction keeps the sizes of the tables. -/
theorem exec_shaped {s t : State} {i : Instr} (hs : s.Shaped) (h : exec i s = .next t) : t.Shaped := by
  cases i with
  | wlit b =>
    obtain ⟨-, ⟨-, rfl⟩ | ⟨-, -, rfl⟩ | ⟨-, -, h⟩⟩ := exec_wlit_next h
    · exact hs
    · exact hs
    · exact recordTokens_shaped hs h
  | wld l d =>
    obtain ⟨-, ⟨-, rfl⟩ | ⟨-, -, rfl⟩ | ⟨-, _, -, -, rfl⟩ | ⟨-, _, _, -, -, -, rfl⟩ | ⟨-, _, _, -, -, -, h⟩⟩ := exec_wld_next h
    · exact hs
    · exact hs
    · exact hs
    · exact hs
    · exact recordTokens_shaped hs h
  | rst =>
    obtain ⟨-, ⟨-, rfl⟩ | ⟨-, rfl⟩⟩ := exec_rst_next h
    · exact hs
    · exact s.toRecorder.seed_shaped s.cfg
  | snap => obtain ⟨-, ⟨-, rfl⟩ | ⟨-, -, rfl⟩ | ⟨-, -, -, -, rfl⟩⟩ := exec_snap_next h <;> exact hs
  | drain => obtain ⟨-, ⟨-, rfl⟩ | ⟨-, rfl⟩⟩ := exec_drain_next h <;> exact hs
  | hdr level => obtain ⟨-, rfl⟩ := exec_hdr_next h; exact hs

end Sys2Proof.Machine
end

