-- ==== Sys2Proof/Laws/Step.lean ====
section
/-! SUPPORT. Runs of the machine through the host's interface, one step at a time. -/

namespace Sys2Proof.Machine

/-- A run whose first step answers a next state goes on from there. -/
theorem run_of_step {M : Host.Core} {n : Nat} {s u : M.State} (h : M.step s = .next u) :
    M.run (n + 1) s = M.run n u := by
  rw [Host.Core.run.eq_def]
  simp only [h]

/-- The same for this machine. -/
theorem core_run_of_step {n : Nat} {s u : State} (h : step s = .next u) :
    Host.Core.run Sys2Proof.core (n + 1) s = Host.Core.run Sys2Proof.core n u :=
  run_of_step (M := Sys2Proof.core) h

/-- A run whose first step stops with a fault has stopped. -/
theorem run_of_fault {M : Host.Core} {n : Nat} {s : M.State} {e : M.Fault} (h : M.step s = .fault e) :
    M.run (n + 1) s = .fault e := by
  rw [Host.Core.run.eq_def]
  simp only [h]

/-- The same for this machine. -/
theorem core_run_of_fault {n : Nat} {s : State} {e : Fault} (h : step s = .fault e) :
    Host.Core.run Sys2Proof.core (n + 1) s = .fault e :=
  run_of_fault (M := Sys2Proof.core) h

end Sys2Proof.Machine
end

