-- ==== Sys2Proof/Tests/Slice0.lean ====
section
/-! SUPPORT. Tests. Expected results are those of 95_test_vectors.md and of the tables of 30_encoding.md and 00_scope.md, whose
ids stand in the comments; then, for each obligation that has hypotheses, states and operands that meet them. -/

namespace Sys2Proof.Tests

open Sys2Proof.Machine

set_option maxRecDepth 20000

/-! ### Helpers -/

/-- The state after hardware reset under `REF`. -/
def start (mode : Mode) (depth : Nat) : State := State.initial (Config.ref mode depth)

/-- The entries of a table that are not 0, with their indices. -/
def nonZero (t : List Nat) : List (Nat × Nat) := (t.zipIdx.filter fun p => p.1 != 0).map fun p => (p.2, p.1)

/-- A state as 95_test_vectors.md writes it: buffered tokens, non-zero counters, FAULT, CAUSE, and the last response's
head. -/
structure Look where
  tok   : List TokenWord
  ll    : List (Nat × Nat)
  d     : List (Nat × Nat)
  fault : Bool
  cause : CauseCode
  head  : Option (Bool × CauseCode)
  deriving DecidableEq, Repr

/-- What 95_test_vectors.md shows of a state. -/
def look (s : State) : Look :=
  ⟨s.tok, nonZero s.llFreq, nonZero s.dFreq, s.fault, s.cause, s.responses.getLast?.map fun r => (r.ok, r.cause)⟩

/-- One command word, and the state after it. -/
def after (w : CommandWord) (s : State) : Option Look := (nextState? (acceptCommand w s)).map look

/-- One command word, and the payload of its response. -/
def payload (w : CommandWord) (s : State) : Option Payload :=
  (nextState? (acceptCommand w s)).bind fun t => t.responses.getLast?.map (·.payload)

/-- The block of 95_test_vectors.md V-R5 and V-R6: `WLIT 0x41` and `WLD 258, 1` in the Statistical unit with 8 entries. -/
def block : State :=
  { start .statistical 8 with
    tok := [0x00041, 0x10102, 0x20001]
    llFreq := ((start .statistical 8).llFreq.set 65 1).set 285 1
    dFreq := (start .statistical 8).dFreq.set 0 1 }

/-- The same block in the Plain unit (V-R10). -/
def plainBlock : State := { start .plain 8 with tok := block.tok }

/-- The block in the fault state, after a BAD_LENGTH. -/
def stopped : State := { block with fault := true, cause := 1 }

/-- `DEPTH = 2` and the store full of one pair, `WLD 4, 2` (V-W5). -/
def full : State :=
  { start .statistical 2 with
    tok := [0x10004, 0x20002]
    llFreq := (start .statistical 2).llFreq.set 258 1
    dFreq := (start .statistical 2).dFreq.set 1 1 }

/-- `DEPTH = 2` and one entry free, after `WLIT 0` (V-F7). -/
def oneFree : State :=
  { start .statistical 2 with tok := [0x00000], llFreq := (start .statistical 2).llFreq.set 0 1 }

/-- A state no run reaches: an empty store, and the counters that `WLIT 0x41` and `WLD 3, 1` update are full. -/
def fullCounters : State :=
  { start .statistical 8 with
    llFreq := ((start .statistical 8).llFreq.set 65 65535).set 257 65535
    dFreq := (start .statistical 8).dFreq.set 0 65535 }

/-- An ill-formed configuration: one entry cannot hold a pair (00_scope.md R6 f). -/
def illFormed : State := start .statistical 1

/-- The state with one event waiting. -/
def waiting (e : Event) (s : State) : State := { s with inputs := [e] }

theorem nextState?_some {o : Result} {t : State} (h : nextState? o = some t) : o = .next t := by
  cases o with
  | next s => exact congrArg _ (Option.some.inj h)
  | fault r => cases h
  | refused r => cases h

/-- A computed outcome is a next state with a computed property. -/
theorem exists_next {o : Result} (p : State → Prop) [DecidablePred p] (h : (nextState? o).any (fun t => decide (p t)) = true) :
    ∃ t, o = .next t ∧ p t := by
  cases hn : nextState? o with
  | none => simp [hn] at h
  | some t => exact ⟨t, nextState?_some hn, by simpa [hn] using h⟩

/-! ### Decoding: words written out from 30_encoding.md R45 to R49, op, A, B[15:8], B[7:0] -/

/-- op 001, A 0, B[15:8] 0, B[7:0] 0100_0001. -/
theorem test_decode_wlit : decodeCommand 0b00100000000000000000000000001000001 = .ok (.wlit 0x41) := by decide

/-- op 010, A 0000_0001_0000_0010, B 0000_0000_0000_0001. -/
theorem test_decode_wld : decodeCommand 0b01000000001000000100000000000000001 = .ok (.wld 258 1) := by decide

/-- op 010, A 1, B 1000_0000_0000_0000: the fields are not exchanged. -/
theorem test_decode_wld_fields : decodeCommand 0b01000000000000000011000000000000000 = .ok (.wld 1 32768) := by decide

/-- op 011, all operand bits 0. -/
theorem test_decode_rst : decodeCommand 0b01100000000000000000000000000000000 = .ok .rst := by decide

/-- op 100, all operand bits 0. -/
theorem test_decode_snap : decodeCommand 0b10000000000000000000000000000000000 = .ok .snap := by decide

/-- op 101, all operand bits 0. -/
theorem test_decode_drain : decodeCommand 0b10100000000000000000000000000000000 = .ok .drain := by decide

/-- The Header port: level 10. -/
theorem test_decode_hdr : decode (.header 0b10) = .ok (.hdr 2) := by decide

/-- V-E1 to V-E8: the illegal words. -/
theorem test_decode_illegal :
    decodeCommand 0x000000000 = .error .reservedOp ∧ decodeCommand 0x600000000 = .error .reservedOp ∧
    decodeCommand 0x700000000 = .error .reservedOp ∧ decodeCommand 0x100000100 = .error .reservedBit ∧
    decodeCommand 0x100010041 = .error .reservedBit ∧ decodeCommand 0x300000001 = .error .reservedBit ∧
    decodeCommand 0x500010000 = .error .reservedBit ∧ decodeCommand 0x4FFFFFFFF = .error .reservedBit := by decide

/-- 95_test_vectors.md 2.2 to 2.5: the words of the vectors. -/
theorem test_encode :
    encode (.wlit 0xFF) = .command 0x1000000FF ∧ encode (.wld 258 32768) = .command 0x201028000 ∧
    encode .rst = .command 0x300000000 ∧ encode .snap = .command 0x400000000 ∧
    encode .drain = .command 0x500000000 ∧ encode (.hdr 3) = .header 3 := by decide

/-- opcode_table.json: the rows' words, 35 bits on the command port and 2 bits on the Header port. -/
theorem test_table_words :
    decodeTableWord 40 0x100000000 = some (.wlit 0) ∧ decodeTableWord 40 0x200000000 = some (.wld 0 0) ∧
    decodeTableWord 40 0x300000000 = some .rst ∧ decodeTableWord 40 0x400000000 = some .snap ∧
    decodeTableWord 40 0x500000000 = some .drain ∧ decodeTableWord 8 0 = some (.hdr 0) ∧
    decodeTableWord 40 0x800000000 = none ∧ decodeTableWord 8 4 = none := by decide

/-- A row's word placed where `step` fetches runs as the first instruction after reset. -/
theorem test_fetch_word :
    (nextState? (step (State.reset.withFetchWord 40 0x100000041))).map look =
      some ⟨[0x00041], [(65, 1), (256, 1)], [], false, 0, some (true, 0)⟩ ∧
    (nextState? (step (State.reset.withFetchWord 8 2))).map (·.headers) = some [0x789C] := by decide

/-! ### The instructions -/

/-- V-W1. -/
theorem test_wlit_counts :
    after 0x100000041 (start .statistical 8) =
      some ⟨[0x00041], [(65, 1), (256, 1)], [], false, 0, some (true, 0)⟩ := by decide

/-- V-W5. -/
theorem test_wlit_overflow :
    after 0x100000000 full =
      some ⟨[0x10004, 0x20002], [(256, 1), (258, 1)], [(1, 1)], true, 3, some (false, 3)⟩ := by decide

/-- V-D1. -/
theorem test_wld_counts :
    after 0x201020001 (start .statistical 8) =
      some ⟨[0x10102, 0x20001], [(256, 1), (285, 1)], [(0, 1)], false, 0, some (true, 0)⟩ := by decide

/-- V-F1, V-F2, V-F3, V-F7, V-F8: the order of the three checks, and no half pair. -/
theorem test_wld_faults :
    (after 0x200000000 (start .statistical 8)).map (·.cause) = some 1 ∧
    (after 0x200030000 (start .statistical 8)).map (·.cause) = some 2 ∧
    (after 0x200020005 (start .statistical 8)).map (·.cause) = some 1 ∧
    after 0x200040002 oneFree = some ⟨[0x00000], [(0, 1), (256, 1)], [], true, 3, some (false, 3)⟩ ∧
    (after 0x200000000 oneFree).map (·.cause) = some 1 := by decide

/-- P1 step 3. -/
theorem test_rst_seeds :
    after 0x300000000 block = some ⟨[], [(256, 1)], [], false, 0, some (true, 0)⟩ := by decide

/-- V-F10: RST does not clear a fault. -/
theorem test_rst_refused : after 0x300000000 stopped = some { look stopped with head := some (false, 1) } := by decide

/-- V-R5. -/
theorem test_snap_payload :
    (payload 0x400000000 block).map (fun p => (nonZero p.ll, p.ll.length, nonZero p.dd, p.dd.length, p.tokens)) =
      some ([(65, 1), (256, 1), (285, 1)], 286, [(0, 1)], 30, []) := by decide

/-- V-R9: SNAP in Plain mode. -/
theorem test_snap_plain :
    after 0x400000000 plainBlock =
      some ⟨[0x00041, 0x10102, 0x20001], [(256, 1)], [], true, 4, some (false, 4)⟩ := by decide

/-- V-R6, V-R10: the same tokens in both modes. -/
theorem test_drain_payload :
    payload 0x500000000 block = some { tokens := [0x00041, 0x10102, 0x20001] } ∧
    payload 0x500000000 plainBlock = some { tokens := [0x00041, 0x10102, 0x20001] } ∧
    after 0x500000000 block = some { look block with head := some (true, 0) } := by decide

/-- V-F11: refused, empty payload. -/
theorem test_drain_refused :
    payload 0x500000000 stopped = some {} ∧
    after 0x500000000 stopped = some { look stopped with head := some (false, 1) } := by decide

/-- V-H1 to V-H4. -/
theorem test_hdr_levels :
    buildHeader 0x78 0 = 0x7801 ∧ buildHeader 0x78 1 = 0x785E ∧ buildHeader 0x78 2 = 0x789C ∧
    buildHeader 0x78 3 = 0x78DA := by decide

/-- V-F14: the Header unit answers in the fault state and leaves the Recorder unit as it was. -/
theorem test_hdr_in_fault_state :
    (nextState? (exec (.hdr 2) stopped)).map (fun t => (t.headers, look t)) = some ([0x789C], look stopped) := by decide

/-! ### The operations -/

/-- V-H5 to V-H9. -/
theorem test_fcheck :
    fcheck 0x78 0x1F = 0x01 ∧ fcheck 0x78 0x5E = 0x5E ∧ fcheck 0x78 0x20 = 0x3F ∧ fcheck 0x78 0xFF = 0xF9 ∧
    fcheck 0x08 0x00 = 0x1D := by decide

/-- 95_test_vectors.md 2.7, `LenSym`. -/
theorem test_len_sym :
    [(0 : HalfWord), 1, 2, 3, 4, 10, 11, 12, 13, 18, 19, 22, 23, 34, 35, 66, 67, 114, 115, 130, 131, 226, 227, 257, 258,
      259, 260, 1000, 65535].map (Config.ref .plain 8).lenSym =
    [none, none, none, some 257, some 258, some 264, some 265, some 265, some 266, some 268, some 269, some 269, some 270,
      some 272, some 273, some 276, some 277, some 279, some 280, some 280, some 281, some 283, some 284, some 284,
      some 285, none, none, none, none] := by decide

/-- 95_test_vectors.md 2.7, `DistSym`. -/
theorem test_dist_sym :
    [(0 : HalfWord), 1, 2, 4, 5, 6, 7, 8, 9, 12, 13, 16, 17, 24, 25, 32, 33, 256, 257, 1024, 1025, 4096, 4097, 16384,
      16385, 24576, 24577, 32767, 32768, 32769, 40000, 65535].map (Config.ref .plain 8).distSym =
    [none, some 0, some 1, some 3, some 4, some 4, some 5, some 5, some 6, some 6, some 7, some 7, some 8, some 8, some 9,
      some 9, some 10, some 15, some 16, some 19, some 20, some 23, some 24, some 27, some 28, some 28, some 29, some 29,
      some 29, none, none, none] := by decide

/-- V-F12: an illegal word in the fault state is refused with the stored cause, before it is decoded. -/
theorem test_refused_before_decode :
    after 0x000000000 stopped = some { look stopped with head := some (false, 1) } := by decide

/-- V-E10: a word with no reserved bits decodes and faults in execution. -/
theorem test_decodes_then_faults :
    after 0x2FFFFFFFF (start .statistical 8) = some ⟨[], [(256, 1)], [], true, 1, some (false, 1)⟩ := by decide

/-- V-F13: hardware reset leaves the fault state, without response. -/
theorem test_hardware_reset :
    (nextState? (hardwareReset stopped .statistical)).map look = some ⟨[], [(256, 1)], [], false, 0, none⟩ := by decide

/-- 10_state.md R20, R21 on V-W5's start: a full store of two entries. -/
theorem test_status_port : full.statusPort = ⟨1, false, 0, 2, false, true⟩ := by decide

/-- 10_state.md R13: `ceil(log2(DEPTH+1))` bits for `DEPTH` 2, 4, 7, 8. -/
theorem test_count_width :
    countWidth 2 = 2 ∧ countWidth 4 = 3 ∧ countWidth 7 = 3 ∧ countWidth 8 = 4 := by decide

/-- 30_encoding.md R50, R51: the reserved tag, and a Literal above a byte. -/
theorem test_read_token :
    readToken 0x10102 = some (.length 258) ∧ readToken 0x28000 = some (.distance 32768) ∧ readToken 0x30000 = none ∧
    readToken 0x00100 = none := by decide

/-! ### Well-formedness: each clause of 00_scope.md R6 refuses a configuration that breaks it alone -/

theorem test_wf_ref : (Config.ref .plain 2).wf = true ∧ (Config.ref .statistical 65535).wf = true := by decide

theorem test_wf_sizes : Config.sizesOk { Config.ref .plain 8 with numLitlenLive := 287 } = false := by decide

theorem test_wf_eob : Config.eobOk { Config.ref .plain 8 with eobIndex := 255 } = false ∧
    Config.eobOk { Config.ref .plain 8 with eobIndex := 286 } = false := by decide

theorem test_wf_len_codes : Config.lenCodesOk { Config.ref .plain 8 with lenCodes := [⟨3, 258, 256⟩] } = false ∧
    Config.lenCodesOk { Config.ref .plain 8 with lenCodes := [⟨3, 258, 255⟩] } = false ∧
    Config.lenCodesOk { Config.ref .plain 8 with lenCodes := [⟨3, 258, 286⟩] } = false := by decide

theorem test_wf_dist_codes : Config.distCodesOk { Config.ref .plain 8 with distCodes := [⟨1, 4, 30⟩] } = false := by decide

theorem test_wf_rows : rowsCanonical [⟨3, 4, 257⟩, ⟨4, 5, 258⟩] = false ∧ rowsCanonical [⟨5, 4, 257⟩] = false := by decide

theorem test_wf_ranges :
    Config.rangesOk { Config.ref .plain 8 with lenCodes := [⟨3, 257, 257⟩] } = false ∧
    Config.rangesOk { Config.ref .plain 8 with lenCodes := [⟨0, 258, 257⟩] } = false ∧
    Config.rangesOk { Config.ref .plain 8 with distCodes := [⟨2, 4, 0⟩] } = false ∧
    Config.rangesOk { Config.ref .plain 8 with distCodes := [⟨0, 4, 0⟩] } = false := by decide

theorem test_wf_depth : (Config.ref .plain 1).depthOk = false ∧ (Config.ref .plain 65536).depthOk = false := by decide

theorem test_wf_cmf : Config.cmfOk { Config.ref .plain 8 with cmfConst := 0x08 } = false := by decide

theorem test_wf_lines :
    (Line.wlit 256).wf = false ∧ (Line.wld 65536 0).wf = false ∧ (Line.wld 0 65536).wf = false ∧
    (Line.hdr 4).wf = false ∧ (Line.cmd 0x800000000).wf = false ∧
    (Line.hdrNamed .default).assemble = some (.header 0b10) ∧
    (Line.wld 6 3).assemble = some (.command 0x200060003) := by decide

/-! ### Witnesses: states and operands that meet the hypotheses of the obligations -/

/-- EncodeDecodeAgree, WordSelectsRow: words that decode. -/
theorem test_witness_decodes :
    decode (.command 0x201028000) = .ok (.wld 258 32768) ∧ decode (.header 3) = .ok (.hdr 3) ∧
    decodeCommand 0x1000000FF = .ok (.wlit 0xFF) ∧ decodeCommand 0x2FFFFFFFF = .ok (.wld 65535 65535) := by decide

/-- CommandWordNumber: an instruction of each format that encodes to a command word. -/
theorem test_witness_encodes :
    encode (.wlit 0xFF) = .command 0x1000000FF ∧ encode (.wld 65535 65535) = .command 0x2FFFFFFFF ∧
    encode .rst = .command 0x300000000 ∧ encode .snap = .command 0x400000000 ∧
    encode .drain = .command 0x500000000 := by decide

/-- WordSelectsRow: every row of the table selects a word. -/
theorem test_witness_rows :
    commandTable.map (fun r => r.selects r.pattern) = [true, true, true, true, true] ∧
    commandTable.map (fun r => r.selects 0x2FFFFFFFF) = [false, true, false, false, false] := by decide

/-- TokenWordNumbers: a word that reads as each kind of token. -/
theorem test_witness_tokens :
    readToken 0x000FF = some (.literal 0xFF) ∧ readToken 0x1FFFF = some (.length 65535) ∧
    readToken 0x2FFFF = some (.distance 65535) := by decide

/-- TextLinesAssemble: the first operands out of range. -/
theorem test_witness_lines :
    255 < 256 ∧ 65535 < 65536 ∧ 3 < 4 ∧ (Line.wlit 256).assemble = none ∧ (Line.wld 65536 1).assemble = none ∧
    (Line.wld 3 65536).assemble = none ∧ (Line.hdr 4).assemble = none := by decide

/-- StepRunsDecodedInstruction: a word waits that decodes. -/
theorem test_witness_waiting_word :
    (waiting (.present (.command 0x100000041)) State.reset).inputs = [.present (.command 0x100000041)] ∧
    decode (.command 0x100000041) = .ok (.wlit 0x41) ∧ decode (.header 1) = .ok (.hdr 1) := by decide

/-- StepWithoutInstruction: no event, and an illegal word in an operating and in a faulted unit. -/
theorem test_witness_no_instruction :
    State.reset.inputs = [] ∧ State.reset.cfg.wf = true ∧ State.reset.fault = false ∧ stopped.cfg.wf = true ∧
    stopped.fault = true ∧ (waiting (.present (.command 0)) stopped).inputs = [.present (.command 0)] ∧
    decodeCommand 0 = .error .reservedOp := by decide

/-- PresentedWordRunsNext: a row's word on each port, at the largest values. -/
theorem test_witness_presented :
    portWordOf 40 0x7FFFFFFFF = some (.command 0x7FFFFFFFF) ∧ portWordOf 8 3 = some (.header 3) ∧
    decodeTableWord 40 0x2FFFFFFFF = some (.wld 65535 65535) ∧ decodeTableWord 8 3 = some (.hdr 3) := by decide

/-- PrologueDecidesInOrder, CausePriority: an illegal word of every case of R48. -/
theorem test_witness_illegal_words :
    [(0x000000000 : CommandWord), 0x600000000, 0x7FFFFFFFF, 0x100000100, 0x100010041, 0x500010000].map
      (fun w => decide (IllegalWord block.cfg w)) = [true, true, true, true, true, true] ∧
    decide (IllegalWord plainBlock.cfg 0x400000000) = true ∧ plainBlock.cfg.wf = true ∧ plainBlock.fault = false := by
  decide

/-- PrologueDecidesInOrder, CausePriority: a legal word of every operation. -/
theorem test_witness_legal_words :
    [(0x1000000FF : CommandWord), 0x2FFFFFFFF, 0x300000000, 0x400000000, 0x500000000].map
      (fun w => decide (IllegalWord block.cfg w)) = [false, false, false, false, false] := by decide

/-- ThreeOutcomes, FaultStateRefuses: an operating and a faulted state, well formed and with their tables. -/
theorem test_witness_shaped :
    block.cfg.wf = true ∧ block.Shaped ∧ stopped.cfg.wf = true ∧ stopped.Shaped ∧ stopped.fault = true := by decide

/-- ThreeOutcomes: a completed, a faulted and a refused command. -/
theorem test_witness_outcomes :
    (∃ t, acceptCommand 0x100000041 block = .next t ∧ block.fault = false ∧ t.fault = false) ∧
    (∃ t, acceptCommand 0x200000000 block = .next t ∧ block.fault = false ∧ t.fault = true) ∧
    (∃ t, acceptCommand 0x100000041 stopped = .next t ∧ stopped.fault = true ∧ t.fault = true) :=
  ⟨exists_next _ (by decide), exists_next _ (by decide), exists_next _ (by decide)⟩

/-- IllFormedConfigRefused. -/
theorem test_witness_ill_formed : illFormed.cfg.wf = false := by decide

/-- StepReadsConfigStateWord, RunIsFoldOfSteps: a well-formed configuration with command words waiting, and a fold that
answers: a write, then a word that faults. -/
theorem test_witness_fold :
    block.cfg.wf = true ∧
    ({ block with inputs := commands [0x100000042, 0] } : State).inputs = commands [0x100000042, 0x000000000] ∧
    (recorderRun block.cfg block.toRecorder [0x100000042, 0x000000000]).toOption.map
      (fun p => (p.1.tok.length, p.1.cause, p.2.map (·.ok))) = some (4, 4, [true, false]) := by decide

/-- ResponseHeads: a DRAIN, a SNAP and a write that answer OK, and a command that answers ERR. -/
theorem test_witness_heads :
    (∃ t, acceptCommand 0x500000000 block = .next t ∧ decodeCommand 0x500000000 = .ok .drain ∧
      t.responses = block.responses ++ [⟨true, 0, { tokens := block.tok }⟩]) ∧
    (∃ t, acceptCommand 0x400000000 block = .next t ∧ decodeCommand 0x400000000 = .ok .snap ∧
      t.responses = block.responses ++ [⟨true, 0, { ll := block.llFreq.take 286, dd := block.dFreq }⟩]) ∧
    (∃ t, acceptCommand 0x1000000FF block = .next t ∧ t.responses = block.responses ++ [⟨true, 0, {}⟩]) ∧
    (∃ t, acceptCommand 0x000000000 block = .next t ∧ t.responses = block.responses ++ [⟨false, 4, {}⟩]) :=
  ⟨exists_next _ (by decide), exists_next _ (by decide), exists_next _ (by decide), exists_next _ (by decide)⟩

/-- WlitExecutes, CountersKeepTheirWidth: ready states of both units, one with the last entry free, one full. -/
theorem test_witness_wlit :
    (block.Ready ∧ block.CountersFit ∧ block.tokCount + 1 ≤ block.cfg.depth ∧ block.cfg.mode = .statistical) ∧
    (plainBlock.Ready ∧ plainBlock.CountersFit ∧ plainBlock.tokCount + 1 ≤ plainBlock.cfg.depth) ∧
    (oneFree.Ready ∧ oneFree.CountersFit ∧ oneFree.tokCount + 1 = oneFree.cfg.depth) ∧
    (full.Ready ∧ full.cfg.depth < full.tokCount + 1) := by decide

/-- WldExecutes: the first operands without codes and the last with one, a pair that just fits, a pair that does not. -/
theorem test_witness_wld :
    block.Ready ∧ block.CountersFit ∧ block.cfg.lenSym 2 = none ∧ block.cfg.lenSym 259 = none ∧
    block.cfg.lenSym 3 = some 257 ∧ block.cfg.lenSym 258 = some 285 ∧ block.cfg.distSym 0 = none ∧
    block.cfg.distSym 32769 = none ∧ block.cfg.distSym 1 = some 0 ∧ block.cfg.distSym 32768 = some 29 ∧
    (start .statistical 2).Ready ∧ (start .statistical 2).CountersFit ∧
    (start .statistical 2).tokCount + 2 = (start .statistical 2).cfg.depth ∧
    oneFree.Ready ∧ oneFree.cfg.depth < oneFree.tokCount + 2 ∧ oneFree.cfg.lenSym 3 = some 257 ∧
    oneFree.cfg.distSym 1 = some 0 ∧ plainBlock.Ready ∧ plainBlock.CountersFit := by decide

/-- CountersKeepTheirWidth where a counter is full: the premises hold without `CountersFit`. -/
theorem test_witness_full_counters :
    fullCounters.Ready ∧ ¬ fullCounters.CountersFit ∧ fullCounters.tokCount + 2 ≤ fullCounters.cfg.depth ∧
    fullCounters.cfg.mode = .statistical ∧ fullCounters.cfg.lenSym 3 = some 257 ∧ fullCounters.cfg.distSym 1 = some 0 ∧
    fullCounters.llFreq[65]? = some 65535 ∧ fullCounters.llFreq[66]? = some 0 ∧ 0 + 1 < 2 ^ fullCounters.cfg.cntW := by
  decide

/-- RstExecutes, SnapExecutes, DrainExecutes, HdrExecutes, HdrTable: operating states of both units, and a faulted one for
HDR. -/
theorem test_witness_control :
    block.Ready ∧ block.cfg.mode = .statistical ∧ plainBlock.Ready ∧ plainBlock.cfg.mode = .plain ∧
    0 < block.cfg.numLitlenLive ∧ 29 < block.cfg.numDist ∧ stopped.cfg.wf = true := by decide

/-- FCheckProperties: the case of remainder 0 (V-H7). -/
theorem test_witness_fcheck : ((0x78 : Byte).toNat * 256 + ((0x20 : Byte) &&& 0xE0).toNat) % 31 = 0 := by decide

/-- HeaderDivisible, HdrFrame, ReadsRepeat: HDR answers in an operating and in a faulted unit. -/
theorem test_witness_hdr :
    (∃ t, exec (.hdr 3) block = .next t ∧ t.headers = [0x78DA]) ∧
    (∃ t, exec (.hdr 3) stopped = .next t ∧ t.headers = [0x78DA]) :=
  ⟨exists_next _ (by decide), exists_next _ (by decide)⟩

/-- WlitFrame: completed in both units, faulted, refused. -/
theorem test_witness_wlit_frame :
    (∃ t, exec (.wlit 0x42) block = .next t ∧ t.fault = block.fault ∧ t.tokCount = 4) ∧
    (∃ t, exec (.wlit 0x42) plainBlock = .next t ∧ plainBlock.cfg.mode = .plain ∧ t.tokCount = 4) ∧
    (∃ t, exec (.wlit 0x42) full = .next t ∧ full.fault = false ∧ t.fault = true) ∧
    (∃ t, exec (.wlit 0x42) stopped = .next t ∧ stopped.fault = true ∧ t.tokCount = 3) :=
  ⟨exists_next _ (by decide), exists_next _ (by decide), exists_next _ (by decide), exists_next _ (by decide)⟩

/-- WldFrame: completed in both units, faulted, refused. -/
theorem test_witness_wld_frame :
    (∃ t, exec (.wld 258 32768) block = .next t ∧ t.fault = block.fault ∧ t.tokCount = 5) ∧
    (∃ t, exec (.wld 3 1) plainBlock = .next t ∧ plainBlock.cfg.mode = .plain ∧ t.tokCount = 5) ∧
    (∃ t, exec (.wld 3 0) block = .next t ∧ block.fault = false ∧ t.fault = true) ∧
    (∃ t, exec (.wld 3 1) stopped = .next t ∧ stopped.fault = true ∧ t.tokCount = 3) ∧
    block.cfg.lenSym 258 ≠ some 284 ∧ block.cfg.distSym 32768 ≠ some 28 :=
  ⟨exists_next _ (by decide), exists_next _ (by decide), exists_next _ (by decide), exists_next _ (by decide),
    by decide, by decide⟩

/-- RstFrame, ResetValues, FreeGovernsWrites: RST completes, and is refused in the fault state. -/
theorem test_witness_rst_frame :
    (∃ t, exec .rst block = .next t ∧ block.fault = false ∧ t.tokCount = 0) ∧
    (∃ t, exec .rst stopped = .next t ∧ stopped.fault = true ∧ t.tokCount = 3) :=
  ⟨exists_next _ (by decide), exists_next _ (by decide)⟩

/-- ReadFrame, ReadsRepeat: SNAP in each unit, DRAIN in each unit, and in the fault state. -/
theorem test_witness_read_frame :
    (∃ t, exec .snap block = .next t ∧ block.cfg.mode = .statistical ∧ t.fault = false) ∧
    (∃ t, exec .snap plainBlock = .next t ∧ plainBlock.cfg.mode = .plain ∧ t.fault = true) ∧
    (∃ t, exec .drain block = .next t ∧ t.fault = false) ∧
    (∃ t, exec .drain plainBlock = .next t ∧ t.fault = false) ∧
    (∃ t, exec .drain stopped = .next t ∧ stopped.fault = true) :=
  ⟨exists_next _ (by decide), exists_next _ (by decide), exists_next _ (by decide), exists_next _ (by decide),
    exists_next _ (by decide)⟩

/-- FaultLeftOnlyByHardwareReset, PayloadsStayGiven: a faulted unit that stays so, and one that hardware reset frees. -/
theorem test_witness_fault_left :
    (∃ t, step (waiting (.present (.command 0x300000000)) stopped) = .next t ∧ stopped.fault = true ∧ t.fault = true) ∧
    (∃ t, step (waiting (.hardwareReset .plain none) stopped) = .next t ∧ stopped.fault = true ∧ t.fault = false) :=
  ⟨exists_next _ (by decide), exists_next _ (by decide)⟩

/-- CausePriority: a step with each cause, in the order of R78. -/
theorem test_witness_causes :
    (∃ t, acceptCommand 0x000000000 stopped = .next t ∧ t.cause = 1) ∧
    (∃ t, acceptCommand 0x000000000 oneFree = .next t ∧ t.cause = 4) ∧
    (∃ t, acceptCommand 0x200000000 oneFree = .next t ∧ t.cause = 1) ∧
    (∃ t, acceptCommand 0x200030000 oneFree = .next t ∧ t.cause = 2) ∧
    (∃ t, acceptCommand 0x200030001 oneFree = .next t ∧ t.cause = 3) ∧
    (∃ t, acceptCommand 0x100000000 oneFree = .next t ∧ t.cause = 0) :=
  ⟨exists_next _ (by decide), exists_next _ (by decide), exists_next _ (by decide), exists_next _ (by decide),
    exists_next _ (by decide), exists_next _ (by decide)⟩

/-- BadLengthExactly, BadDistanceExactly: both sides of each equivalence, at the bounds of `REF`. -/
theorem test_witness_bad_operands :
    (∃ t, exec (.wld 2 1) block = .next t ∧ block.fault = false ∧ t.cause = 1) ∧
    (∃ t, exec (.wld 259 1) plainBlock = .next t ∧ t.cause = 1) ∧
    (∃ t, exec (.wld 3 0) block = .next t ∧ t.cause = 2) ∧
    (∃ t, exec (.wld 258 32769) plainBlock = .next t ∧ t.cause = 2) ∧
    (∃ t, exec (.wld 258 32768) block = .next t ∧ t.cause = 0) :=
  ⟨exists_next _ (by decide), exists_next _ (by decide), exists_next _ (by decide), exists_next _ (by decide),
    exists_next _ (by decide)⟩

/-- OverflowExactly, FreeGovernsWrites: a full store, one entry free, two entries free. -/
theorem test_witness_overflow :
    (∃ t, exec (.wlit 0) full = .next t ∧ full.fault = false ∧ full.tokCount ≤ full.cfg.depth ∧ t.cause = 3) ∧
    (∃ t, exec (.wlit 0) oneFree = .next t ∧ oneFree.tokCount ≤ oneFree.cfg.depth ∧ t.fault = false) ∧
    (∃ t, exec (.wld 3 1) oneFree = .next t ∧ oneFree.cfg.lenSym 3 ≠ none ∧ oneFree.cfg.distSym 1 ≠ none ∧ t.cause = 3) ∧
    (∃ t, exec (.wld 3 1) (start .statistical 2) = .next t ∧ (start .statistical 2).free = 2 ∧ t.fault = false) :=
  ⟨exists_next _ (by decide), exists_next _ (by decide), exists_next _ (by decide), exists_next _ (by decide)⟩

/-- HardwareResetState, HardwareResetFrame: a hardware reset waits that samples the other mode and abandons a command. -/
theorem test_witness_hardware_reset :
    stopped.cfg.wf = true ∧ (waiting (.hardwareReset .plain (some 0x100000041)) stopped).inputs =
      .hardwareReset .plain (some 0x100000041) :: [] ∧
    (nextState? (hardwareReset stopped .plain)).isSome = true := by decide

/-- HardwareResetAndRstCompared: an operating and a faulted unit. -/
theorem test_witness_two_resets :
    block.cfg.wf = true ∧ block.fault = false ∧ stopped.cfg.wf = true ∧ stopped.fault = true := by decide

/-- CountIsAppendPointer: each operation answers in a state that meets the premise; a fault as well. -/
theorem test_witness_count :
    block.tokCount ≤ block.cfg.depth ∧
    (∃ t, acceptCommand 0x1000000FF block = .next t ∧ opField 0x1000000FF = 1 ∧ t.fault = false) ∧
    (∃ t, acceptCommand 0x201028000 block = .next t ∧ opField 0x201028000 = 2 ∧ t.fault = false) ∧
    (∃ t, acceptCommand 0x300000000 block = .next t ∧ opField 0x300000000 = 3 ∧ t.fault = false) ∧
    (∃ t, acceptCommand 0x200030000 block = .next t ∧ t.fault = true) ∧
    (∃ t, exec (.hdr 3) block = .next t ∧ t.fault = false) ∧ (∃ t, hardwareReset block .plain = .next t ∧ t.fault = false) :=
  ⟨by decide, exists_next _ (by decide), exists_next _ (by decide), exists_next _ (by decide), exists_next _ (by decide),
    exists_next _ (by decide), exists_next _ (by decide)⟩

/-- InvAtReset, ReachableStates, ModesAgree, BlockReadBack: a well-formed configuration in each mode. -/
theorem test_witness_config :
    (Config.ref .plain 2).wf = true ∧ (Config.ref .statistical 8).wf = true := by decide

/-- StepKeepsInv, InvGivesCountersFit, EveryEventIsServed: a block with a literal and a pair meets the invariants, with an
event of every kind waiting. -/
theorem test_witness_inv :
    State.Inv { block with inputs := [.present (.command 0x100000042), .present (.header 1), .hardwareReset .plain none] } :=
  { config := by decide
    count := by decide
    pairing := ⟨[.lit 0x41, .pair 258 1], by decide, by decide⟩
    shaped := by decide
    llCounts := by decide
    dCounts := by decide
    plainSeeded := by decide
    causeIffFault := by decide
    causeNamed := by decide }

/-- The same for a Plain unit in the fault state with a full store. -/
theorem test_witness_inv_plain :
    State.Inv { start .plain 2 with tok := [0x10004, 0x20002], fault := true, cause := 3 } :=
  { config := by decide
    count := by decide
    pairing := ⟨[.pair 4 2], by decide, by decide⟩
    shaped := by decide
    llCounts := by decide
    dCounts := by decide
    plainSeeded := by decide
    causeIffFault := by decide
    causeNamed := by decide }

/-- StepKeepsInv, InvGivesCountersFit: the step answers from the first of them, and a write fits. -/
theorem test_witness_inv_step :
    (∃ t, step { block with inputs := [.present (.command 0x100000042)] } = .next t ∧ t.tokCount = 4) ∧
    block.tokCount + 1 ≤ block.cfg.depth :=
  ⟨exists_next _ (by decide), by decide⟩

/-- ReachableStates: two events from hardware reset; a literal, and the mode sampled anew. -/
theorem test_witness_reachable :
    (∃ s, runEvents [.hardwareReset .plain none, .present (.command 0x100000041)] (start .statistical 2) = .next s ∧
      s.cfg.mode = .plain ∧ s.tok = [0x00041]) ∧
    (∃ s, runEvents [.present (.command 0x200030001)] (start .statistical 2) = .next s ∧
      s.cfg.mode = .statistical ∧ s.tok.getLast? = some 0x20001 ∧ s.cfg.lenSym 3 = some 257 ∧ s.llFreq[257]? = some 1) :=
  ⟨exists_next _ (by decide), exists_next _ (by decide)⟩

/-- ModesAgree: words without SNAP, after which the Statistical unit is not faulted. -/
theorem test_witness_modes :
    (0x400000000 : CommandWord) ∉ [(0x100000041 : CommandWord)] ∧
    (∃ t, runEvents (commands [0x100000041]) (start .statistical 2) = .next t ∧ t.fault = false) :=
  ⟨by decide, exists_next _ (by decide)⟩

/-- StepKeepsTwins: the block of both units, and a word that is not SNAP's. -/
theorem test_witness_twins :
    Twins plainBlock block ∧ block.cfg.wf = true ∧ plainBlock.Shaped ∧ block.Shaped ∧
    (0x201028000 : CommandWord) ≠ 0x400000000 :=
  ⟨⟨rfl, rfl, rfl, rfl, rfl, rfl⟩, by decide, by decide, by decide, by decide⟩

/-- BlockReadBack: a pair, in each unit, without fault. -/
theorem test_witness_block :
    (∃ s, runEvents (commands [0x200030001]) (start .statistical 2) = .next s ∧ s.fault = false ∧
      s.cfg.mode = .statistical) ∧
    (∃ s, runEvents (commands [0x200030001]) (start .plain 2) = .next s ∧ s.fault = false) :=
  ⟨exists_next _ (by decide), exists_next _ (by decide)⟩

/-- HeaderCommutes: a command and a hardware reset that answer. -/
theorem test_witness_commutes :
    (∃ t, acceptEvent (.present (.command 0x100000042)) block = .next t ∧ t.tokCount = 4) ∧
    (∃ t, acceptEvent (.hardwareReset .plain none) stopped = .next t ∧ t.fault = false) :=
  ⟨exists_next _ (by decide), exists_next _ (by decide)⟩

/-- WellFormedMeansTheRule: canonical rows, of a well-formed and of an ill-formed configuration. -/
theorem test_witness_canonical :
    rowsCanonical (Config.ref .plain 8).lenCodes = true ∧ rowsCanonical (Config.ref .plain 8).distCodes = true ∧
    (Config.ref .plain 8).wf = true ∧ rowsCanonical illFormed.cfg.lenCodes = true ∧
    rowsCanonical illFormed.cfg.distCodes = true ∧ illFormed.cfg.wf = false := by decide

/-- RefWellFormed: the two ends of the range of `DEPTH`. -/
theorem test_witness_ref : 2 ≤ 2 ∧ 2 ≤ 65535 ∧ 65535 ≤ 65535 := by decide

end Sys2Proof.Tests
end

/-! PROOFS. 00_scope.md R10, R11: under a well-formed configuration and with tables of the configured sizes every instruction
answers a next state, and the answer to a command is one of R11's three outcomes. -/

namespace Sys2Proof.Machine

/-! ### The step is total (R10) -/

/-- A counter update answers when the entry it counts at, if there is one, exists. -/
theorem countIn_answers {w : Nat} {sp : Space} {table : List Nat} {i : Option Nat}
    (h : ∀ k, i = some k → k < table.length) : ∃ table', countIn w sp table i = .ok table' := by
  cases hc : countIn w sp table i with
  | ok table' => exact ⟨table', rfl⟩
  | error e =>
    obtain ⟨k, hi, hk, -⟩ := countIn_error hc
    exact absurd (h k hi) (Nat.not_lt.2 hk)

/-- Recording tokens answers when the entries it counts at exist. -/
theorem recordTokens_answers {c : Config} {r : Recorder} {ws : List TokenWord} {ll d : Option Nat}
    (hll : ∀ k, ll = some k → k < r.llFreq.length) (hd : ∀ k, d = some k → k < r.dFreq.length) :
    ∃ x, recordTokens c r ws ll d = .ok x := by
  obtain ⟨llFreq, h1⟩ := countIn_answers (w := c.cntW) (sp := .llFreq) hll
  obtain ⟨dFreq, h2⟩ := countIn_answers (w := c.cntW) (sp := .dFreq) hd
  cases hm : c.mode <;> simp [recordTokens, hm, h1, h2]

/-- A command whose own rule answers is answered in the fault state and out of it. -/
theorem command_answers {s : State} {rule : Config → Recorder → CommandResult} {o : CommandResult}
    (hwf : s.cfg.wf = true) (hr : rule s.cfg s.toRecorder = prologue s.toRecorder o) (ho : ∃ x, o = .ok x) :
    ∃ t, recorderCommand s rule = .next t := by
  obtain ⟨⟨r, p⟩, rfl⟩ := ho
  cases hf : s.fault with
  | true => exact ⟨_, command_of_faulted hwf hf hr⟩
  | false => exact ⟨_, command_of_good hwf hf hr⟩

/-- Every literal has an entry in `LL_FREQ`. -/
theorem literalIndex_lt_llFreq {s : State} (hwf : s.cfg.wf = true) (hs : s.Shaped) (b : Byte) :
    literalIndex b < s.llFreq.length := by
  obtain ⟨hlive, hcodes, -⟩ := Config.wf_numbers hwf
  have hb : literalIndex b < 256 := b.isLt
  have := hs.1
  omega

/-- Every length code has an entry in `LL_FREQ`. -/
theorem lenSym_lt_llFreq {s : State} (hwf : s.cfg.wf = true) (hs : s.Shaped) {l : HalfWord} {i : Nat}
    (h : s.cfg.lenSym l = some i) : i < s.llFreq.length := by
  obtain ⟨hlive, -⟩ := Config.wf_numbers hwf
  obtain ⟨-, hi, -⟩ := Config.lenSym_bounds hwf h
  have := hs.1
  omega

/-- Every distance code has an entry in `D_FREQ`. -/
theorem distSym_lt_dFreq {s : State} (hwf : s.cfg.wf = true) (hs : s.Shaped) {d : HalfWord} {i : Nat}
    (h : s.cfg.distSym d = some i) : i < s.dFreq.length :=
  (Config.distSym_bound hwf h).trans_eq hs.2.symm

theorem exec_wlit_answers {s : State} (hwf : s.cfg.wf = true) (hs : s.Shaped) (b : Byte) :
    ∃ t, exec (.wlit b) s = .next t := by
  refine command_answers hwf rfl ?_
  split
  · exact ⟨_, raise_eq _ _⟩
  · exact recordTokens_answers (by simpa using literalIndex_lt_llFreq hwf hs b) (by simp)

theorem exec_wld_answers {s : State} (hwf : s.cfg.wf = true) (hs : s.Shaped) (l d : HalfWord) :
    ∃ t, exec (.wld l d) s = .next t := by
  refine command_answers hwf rfl ?_
  split
  · exact ⟨_, raise_eq _ _⟩
  · rename_i ls hl
    split
    · exact ⟨_, raise_eq _ _⟩
    · rename_i ds hd
      split
      · exact ⟨_, raise_eq _ _⟩
      · exact recordTokens_answers (by simpa using lenSym_lt_llFreq hwf hs hl) (by simpa using distSym_lt_dFreq hwf hs hd)

theorem exec_snap_answers {s : State} (hwf : s.cfg.wf = true) (hs : s.Shaped) : ∃ t, exec .snap s = .next t := by
  obtain ⟨hlive, -⟩ := Config.wf_numbers hwf
  obtain ⟨hll, hd⟩ := hs
  refine command_answers hwf rfl ?_
  split
  · exact ⟨_, raise_eq _ _⟩
  · rw [readFirst_eq (by omega), readFirst_eq (by omega)]
    exact ⟨_, rfl⟩

/-- Every instruction answers a next state. -/
theorem exec_answers {s : State} (hwf : s.cfg.wf = true) (hs : s.Shaped) (i : Instr) : ∃ t, exec i s = .next t := by
  cases i with
  | wlit b => exact exec_wlit_answers hwf hs b
  | wld l d => exact exec_wld_answers hwf hs l d
  | rst => exact command_answers hwf rfl ⟨_, rfl⟩
  | snap => exact exec_snap_answers hwf hs
  | drain => exact command_answers hwf rfl ⟨_, rfl⟩
  | hdr level => exact ⟨_, whenWellFormed_of_wf hwf⟩

/-- An illegal command word is answered with a next state, whatever the tables. -/
theorem illegalCommand_answers {s : State} (hwf : s.cfg.wf = true) : ∃ t, illegalCommand s = .next t :=
  command_answers hwf rfl ⟨_, raise_eq _ _⟩

/-- Every command word is answered with a next state. -/
theorem acceptCommand_answers {s : State} (hwf : s.cfg.wf = true) (hs : s.Shaped) (w : CommandWord) :
    ∃ t, acceptCommand w s = .next t := by
  cases hd : decodeCommand w with
  | ok i => rw [acceptCommand_ok s hd]; exact exec_answers hwf hs i
  | error r => rw [acceptCommand_error s hd]; exact illegalCommand_answers hwf

/-! ### The three outcomes (R11) -/

/-- The command is completed: `FAULT` is and stays 0, `CAUSE` is as before, the response is OK. -/
def Completed (s t : State) : Prop :=
  s.fault = false ∧ t.fault = false ∧ t.cause = s.cause ∧ ∃ pl, t.responses = s.responses ++ [okResponse pl]

/-- The command raises a cause in an operating unit. -/
def Faulted (s t : State) : Prop := s.fault = false ∧ ∃ x, t = faultedWith x s

/-- The command is refused in the fault state. -/
def Refused (s t : State) : Prop := s.fault = true ∧ t = refusedIn s

/-- Recorded tokens complete the command. -/
theorem recordTokens_completed {s t : State} {ws : List TokenWord} {ll d : Option Nat} (hf : s.fault = false)
    (h : deliver s (recordTokens s.cfg s.toRecorder ws ll d) = .next t) : Completed s t := by
  obtain ⟨-, rfl⟩ | ⟨-, _, _, -, -, rfl⟩ := recordTokens_next h <;> exact ⟨hf, hf, rfl, _, rfl⟩

/-- An instruction of the command port that answers is completed, faulted or refused. -/
theorem exec_outcome {s t : State} {i : Instr} (hi : ∀ level, i ≠ .hdr level) (h : exec i s = .next t) :
    Completed s t ∨ Faulted s t ∨ Refused s t := by
  cases i with
  | wlit b =>
    obtain ⟨-, hr | ⟨hf, -, rfl⟩ | ⟨hf, -, h⟩⟩ := exec_wlit_next h
    · exact .inr (.inr hr)
    · exact .inr (.inl ⟨hf, _, rfl⟩)
    · exact .inl (recordTokens_completed hf h)
  | wld l d =>
    obtain ⟨-, hr | ⟨hf, -, rfl⟩ | ⟨hf, _, -, -, rfl⟩ | ⟨hf, _, _, -, -, -, rfl⟩ | ⟨hf, _, _, -, -, -, h⟩⟩ :=
      exec_wld_next h
    · exact .inr (.inr hr)
    · exact .inr (.inl ⟨hf, _, rfl⟩)
    · exact .inr (.inl ⟨hf, _, rfl⟩)
    · exact .inr (.inl ⟨hf, _, rfl⟩)
    · exact .inl (recordTokens_completed hf h)
  | rst =>
    obtain ⟨-, hr | ⟨hf, rfl⟩⟩ := exec_rst_next h
    · exact .inr (.inr hr)
    · exact .inl ⟨hf, hf, rfl, _, rfl⟩
  | snap =>
    obtain ⟨-, hr | ⟨hf, -, rfl⟩ | ⟨hf, -, -, -, rfl⟩⟩ := exec_snap_next h
    · exact .inr (.inr hr)
    · exact .inr (.inl ⟨hf, _, rfl⟩)
    · exact .inl ⟨hf, hf, rfl, _, rfl⟩
  | drain =>
    obtain ⟨-, hr | ⟨hf, rfl⟩⟩ := exec_drain_next h
    · exact .inr (.inr hr)
    · exact .inl ⟨hf, hf, rfl, _, rfl⟩
  | hdr level => exact absurd rfl (hi level)

/-- A command word that answers is a decoded instruction, completed; or it is faulted or refused. -/
theorem acceptCommand_outcome {s t : State} {w : CommandWord} (h : acceptCommand w s = .next t) :
    (Completed s t ∧ ∃ i, decodeCommand w = .ok i ∧ acceptCommand w s = exec i s) ∨ Faulted s t ∨ Refused s t := by
  cases hd : decodeCommand w with
  | ok i =>
    have he := acceptCommand_ok s hd
    have hi : ∀ level, i ≠ .hdr level := fun level hl => decodeCommand_not_hdr w level (hl ▸ hd)
    exact (exec_outcome hi (he ▸ h)).imp_left fun hc => ⟨hc, i, rfl, he⟩
  | error r =>
    rw [acceptCommand_error s hd] at h
    obtain ⟨-, hr | ⟨hf, rfl⟩⟩ := illegalCommand_next h
    · exact .inr (.inr hr)
    · exact .inr (.inl ⟨hf, _, rfl⟩)

/-- No cause has the code `NONE` (60_exceptions.md R73). -/
theorem Cause.code_ne_zero (x : Cause) : x.code ≠ 0 := by cases x <;> decide

/-- Settles O12: the word is answered (`acceptCommand_answers`), and the answer is one of the three outcomes
(`acceptCommand_outcome`). -/
theorem threeOutcomes : Obligations.ThreeOutcomes := by
  intro s w hwf hs
  obtain ⟨t, h⟩ := acceptCommand_answers hwf hs w
  refine ⟨t, h, ?_⟩
  obtain ⟨⟨hf, htf, htc, hresp⟩, hexec⟩ | ⟨hf, x, rfl⟩ | hr := acceptCommand_outcome h
  · exact .inl ⟨hf, htf, htc, hexec, hresp⟩
  · exact .inr (.inl ⟨hf, x.code, x.code_ne_zero, x.code_bounds.2, rfl⟩)
  · exact .inr (.inr hr)

end Sys2Proof.Machine

/-! PROOFS. 10_state.md R13 to R25: what moves `TOK_COUNT`, the derived flags and the status port, and the values after
reset. -/

namespace Sys2Proof.Machine

/-! ### What a completed command does, and what a stopped one leaves -/

/-- Recorded tokens are appended, and the configuration and the fault registers stay. -/
theorem recordTokens_frame {s t : State} {ws : List TokenWord} {ll d : Option Nat}
    (h : deliver s (recordTokens s.cfg s.toRecorder ws ll d) = .next t) :
    t.cfg = s.cfg ∧ t.tok = s.tok ++ ws ∧ t.fault = s.fault ∧ t.cause = s.cause := by
  obtain ⟨-, rfl⟩ | ⟨-, _, _, -, -, rfl⟩ := recordTokens_next h <;> exact ⟨rfl, rfl, rfl, rfl⟩

/-- A faulted or refused command leaves everything but the fault registers, and the unit in the fault state. -/
theorem stopped_frame {s t : State} (h : Faulted s t ∨ Refused s t) :
    t.fault = true ∧ t.cfg = s.cfg ∧ t.tok = s.tok ∧ t.llFreq = s.llFreq ∧ t.dFreq = s.dFreq := by
  obtain ⟨-, _, rfl⟩ | ⟨hf, rfl⟩ := h
  · exact ⟨rfl, rfl, rfl, rfl, rfl⟩
  · exact ⟨hf, rfl, rfl, rfl, rfl⟩

/-- A refused command leaves the unit in the fault state. -/
theorem Refused.fault_eq {s t : State} (h : Refused s t) : t.fault = true := (stopped_frame (.inr h)).1

/-- A WLIT after which the unit operates found room and recorded its literal (40_recorder_writes.md R59). -/
theorem exec_wlit_completed {s t : State} {b : Byte} (h : exec (.wlit b) s = .next t) (htf : t.fault = false) :
    s.tokCount + 1 ≤ s.cfg.depth ∧
      deliver s (recordTokens s.cfg s.toRecorder [litWord b] (some (literalIndex b)) none) = .next t := by
  obtain ⟨-, hr | ⟨hf, -, rfl⟩ | ⟨-, hfit, h⟩⟩ := exec_wlit_next h
  · simp [Refused.fault_eq hr] at htf
  · simp at htf
  · exact ⟨hfit, h⟩

/-- A WLD after which the unit operates found both codes and room, and recorded its pair (40_recorder_writes.md R60). -/
theorem exec_wld_completed {s t : State} {l d : HalfWord} (h : exec (.wld l d) s = .next t) (htf : t.fault = false) :
    s.tokCount + 2 ≤ s.cfg.depth ∧ ∃ ls ds, s.cfg.lenSym l = some ls ∧ s.cfg.distSym d = some ds ∧
      deliver s (recordTokens s.cfg s.toRecorder [lenWord l, distWord d] (some ls) (some ds)) = .next t := by
  obtain ⟨-, hr | ⟨-, -, rfl⟩ | ⟨-, _, -, -, rfl⟩ | ⟨-, _, _, -, -, -, rfl⟩ | ⟨-, ls, ds, hl, hd, hfit, h⟩⟩ :=
    exec_wld_next h
  · simp [Refused.fault_eq hr] at htf
  · simp at htf
  · simp at htf
  · simp at htf
  · exact ⟨hfit, ls, ds, hl, hd, h⟩

/-- An RST after which the unit operates has seeded the block (41_recorder_control_read.md R62). -/
theorem exec_rst_completed {s t : State} (h : exec .rst s = .next t) (htf : t.fault = false) :
    t = s.answer (s.toRecorder.seed s.cfg) (okResponse {}) := by
  obtain ⟨-, hr | ⟨-, h⟩⟩ := exec_rst_next h
  · simp [Refused.fault_eq hr] at htf
  · exact h

/-- A read after which the unit operates has changed no state (20_memory.md R34). -/
theorem exec_read_completed {s t : State} {i : Instr} (hi : i = .snap ∨ i = .drain) (h : exec i s = .next t)
    (htf : t.fault = false) : t.toRecorder = s.toRecorder ∧ t.cfg = s.cfg := by
  obtain rfl | rfl := hi
  · obtain ⟨-, hr | ⟨-, -, rfl⟩ | ⟨-, -, -, -, rfl⟩⟩ := exec_snap_next h
    · simp [Refused.fault_eq hr] at htf
    · simp at htf
    · exact ⟨rfl, rfl⟩
  · obtain ⟨-, hr | ⟨-, rfl⟩⟩ := exec_drain_next h
    · simp [Refused.fault_eq hr] at htf
    · exact ⟨rfl, rfl⟩

/-- The instruction of a legal command word, and the `op` it has (30_encoding.md R46). -/
theorem decodeCommand_ok_cases {w : CommandWord} {i : Instr} (h : decodeCommand w = .ok i) :
    (opField w = 1 ∧ i = .wlit (bLowField w)) ∨ (opField w = 2 ∧ i = .wld (aField w) (bField w)) ∨
    (opField w = 3 ∧ i = .rst) ∨ ((opField w = 4 ∨ opField w = 5) ∧ (i = .snap ∨ i = .drain)) := by
  rcases decodeCommand_cases w with ⟨ho, -, -, hd⟩ | ⟨ho, hd⟩ | ⟨ho, -, -, hd⟩ | ⟨ho, -, -, hd⟩ | ⟨ho, -, -, hd⟩ |
    ⟨-, hd⟩ | ⟨-, -, hd⟩ | ⟨-, -, hd⟩ <;> rw [hd] at h <;> cases h <;> simp [ho]

/-! ### The token count (R16), the derived flags (R20) and the status port (R21) -/

/-- Settles O37: a stopped command leaves the store as it is (`stopped_frame`), a completed one does what the instruction
of its word says, and each write is preceded by its check of the room. -/
theorem countIsAppendPointer : Obligations.CountIsAppendPointer := by
  intro s t hcount
  refine ⟨fun w h => ?_, fun level h => ?_, fun m h => ?_⟩
  · obtain ⟨⟨hf, htf, -, -⟩, i, hd, he⟩ | hstop := acceptCommand_outcome h
    · rw [he] at h
      obtain ⟨ho, rfl⟩ | ⟨ho, rfl⟩ | ⟨ho, rfl⟩ | ⟨ho, hi⟩ := decodeCommand_ok_cases hd
      · obtain ⟨hfit, hrec⟩ := exec_wlit_completed h htf
        obtain ⟨hcfg, htok, -, -⟩ := recordTokens_frame hrec
        simpa [Recorder.tokCount, hcfg, htok, htf, ho] using hfit
      · obtain ⟨hfit, ls, ds, -, -, hrec⟩ := exec_wld_completed h htf
        obtain ⟨hcfg, htok, -, -⟩ := recordTokens_frame hrec
        simpa [Recorder.tokCount, hcfg, htok, htf, ho] using hfit
      · obtain rfl := exec_rst_completed h htf
        simp [Recorder.tokCount, ho, hf]
      · obtain ⟨hrec, hcfg⟩ := exec_read_completed hi h htf
        obtain ho | ho := ho <;> simpa [hrec, hcfg, htf, ho] using hcount
    · obtain ⟨htf, hcfg, htok, -, -⟩ := stopped_frame hstop
      simpa [Recorder.tokCount, hcfg, htok, htf] using hcount
  · obtain ⟨-, rfl⟩ := exec_hdr_next h
    rfl
  · obtain ⟨-, rfl⟩ := hardwareReset_next h
    rfl

theorem State.empty_iff (s : State) : s.empty = true ↔ s.tokCount = 0 := decide_eq_true_iff

theorem State.full_iff (s : State) : s.full = true ↔ s.tokCount = s.cfg.depth := decide_eq_true_iff

/-- The flags of an empty store: a well-formed configuration has at least two entries (00_scope.md R6 f). -/
theorem flags_of_empty_store {s : State} (hwf : s.cfg.wf = true) (h : s.tok = []) :
    s.empty = true ∧ s.full = false ∧ s.free = s.cfg.depth := by
  obtain ⟨-, -, -, -, hdepth, -⟩ := Config.wf_numbers hwf
  have hcount : s.tokCount = 0 := by simp [Recorder.tokCount, h]
  refine ⟨s.empty_iff.2 hcount, ?_, by simp [State.free, hcount]⟩
  have hne : ¬ s.full = true := by rw [s.full_iff]; omega
  simpa using hne

/-- Settles O38: a completed write found room (`exec_wlit_completed`, `exec_wld_completed`), and both resets leave an empty
store (`flags_of_empty_store`). -/
theorem freeGovernsWrites : Obligations.FreeGovernsWrites := by
  refine ⟨fun s => ⟨rfl, s.empty_iff, s.full_iff⟩, fun s t b _ h htf => ?_, fun s t l d _ h htf => ?_,
    fun c hwf => flags_of_empty_store hwf rfl, fun s t hf h => ?_⟩
  · obtain ⟨hfit, -⟩ := exec_wlit_completed h htf
    unfold State.free
    omega
  · obtain ⟨hfit, -⟩ := exec_wld_completed h htf
    unfold State.free
    omega
  · obtain ⟨hwf, ⟨hf', -⟩ | ⟨-, rfl⟩⟩ := exec_rst_next h
    · simp [hf] at hf'
    · exact flags_of_empty_store hwf rfl

theorem modeBit_eq_one_iff (m : Mode) : modeBit m = 1 ↔ m = .statistical := by cases m <;> decide

/-- Settles O39: each output is the part of the state the rule names; the mode bit and the two flags by their lemmas. -/
theorem statusPortShows : Obligations.StatusPortShows := fun s =>
  ⟨modeBit_eq_one_iff _, rfl, rfl, rfl, s.empty_iff, s.full_iff⟩

/-! ### The values after a reset (R25) -/

/-- What an emptied and seeded block holds (10_state.md R25). -/
theorem seeded_values {s : State} (hwf : s.cfg.wf = true) (htok : s.tok = []) (hll : s.llFreq = s.cfg.seededLL)
    (hd : s.dFreq = s.cfg.seededD) :
    s.llFreq.length = s.cfg.numLitlenRaw ∧ s.dFreq.length = s.cfg.numDist ∧
    (∀ i < s.cfg.numLitlenRaw, s.llFreq[i]? = some (if i = s.cfg.eobIndex then 1 else 0)) ∧
    (∀ i < s.cfg.numDist, s.dFreq[i]? = some 0) ∧ s.empty = true ∧ s.full = false ∧ s.free = s.cfg.depth := by
  rw [hll, hd]
  exact ⟨s.cfg.seededLL_length, s.cfg.seededD_length, fun _ => s.cfg.seededLL_get, fun _ => s.cfg.seededD_get,
    flags_of_empty_store hwf htok⟩

/-- Settles O43: both resets empty and seed the block (`seeded_values`); hardware reset writes the fault registers and RST
leaves them. -/
theorem resetValues : Obligations.ResetValues := by
  refine ⟨fun c hwf => ⟨rfl, rfl, rfl, rfl, seeded_values (s := State.initial c) hwf rfl rfl rfl⟩, fun s t h hf => ?_⟩
  obtain ⟨hwf, ⟨hf', -⟩ | ⟨-, rfl⟩⟩ := exec_rst_next h
  · simp [hf] at hf'
  · exact ⟨rfl, rfl, rfl, rfl, seeded_values (s := s.answer _ _) hwf rfl rfl rfl⟩

end Sys2Proof.Machine

/-! PROOFS. 10_state.md R23: the invariants hold after hardware reset, every event keeps them, and the clauses of the rule
follow from them. -/

namespace Sys2Proof.Machine

/-! ### The words of the token store -/

/-- A token word the unit writes: a literal, or half of a pair whose operand has a code. -/
inductive Written (c : Config) : TokenWord → Prop where
  | lit (b : Byte) : Written c (litWord b)
  | len {l : HalfWord} {i : Nat} (h : c.lenSym l = some i) : Written c (lenWord l)
  | dist {d : HalfWord} {i : Nat} (h : c.distSym d = some i) : Written c (distWord d)

/-- Every word of a unit with codes is a word the unit writes. -/
theorem Entry.written {c : Config} {e : Entry} (he : e.coded c = true) {w : TokenWord} (hw : w ∈ e.words) :
    Written c w := by
  cases e with
  | lit b =>
    obtain rfl := List.mem_singleton.1 hw
    exact .lit b
  | pair l d =>
    obtain ⟨hl, hd⟩ := Bool.and_eq_true_iff.1 he
    obtain ⟨ls, hl⟩ := Option.isSome_iff_exists.1 hl
    obtain ⟨ds, hd⟩ := Option.isSome_iff_exists.1 hd
    obtain rfl | hw := List.mem_cons.1 hw
    · exact .len hl
    · obtain rfl := List.mem_singleton.1 hw
      exact .dist hd

/-- Every buffered word is a word the unit writes. -/
theorem State.Inv.written {s : State} (hi : s.Inv) {w : TokenWord} (hw : w ∈ s.tok) : Written s.cfg w := by
  obtain ⟨es, htok, hes⟩ := hi.pairing
  rw [htok] at hw
  obtain ⟨e, he, hw⟩ := List.mem_flatMap.1 hw
  exact Entry.written (hes e he) hw

/-- The last word of a sequence of units is no `Len` (10_state.md R23 b). -/
theorem tag_getLast_entries {es : List Entry} {w : TokenWord} (h : (es.flatMap Entry.words).getLast? = some w) :
    w.extractLsb' 16 2 ≠ 0b01 := by
  rw [List.getLast?_flatMap] at h
  obtain ⟨e, -, he⟩ := List.exists_of_findSome?_eq_some h
  cases e with
  | lit b =>
    obtain rfl : litWord b = w := Option.some.inj he
    simp
  | pair l d =>
    obtain rfl : distWord d = w := Option.some.inj he
    simp

/-- No written word has the reserved tag (30_encoding.md R51). -/
theorem Written.tag_ne_reserved {c : Config} {w : TokenWord} (h : Written c w) : w.extractLsb' 16 2 ≠ 0b11 := by
  cases h <;> simp

theorem litWord_inj {b b' : Byte} : litWord b = litWord b' ↔ b = b' :=
  ⟨fun h => by simpa using congrArg readToken h, congrArg litWord⟩

theorem lenWord_ne_litWord (l : HalfWord) (b : Byte) : lenWord l ≠ litWord b :=
  fun h => by simpa using congrArg readToken h

theorem distWord_ne_litWord (d : HalfWord) (b : Byte) : distWord d ≠ litWord b :=
  fun h => by simpa using congrArg readToken h

/-! ### Where the words count -/

/-- The words that count at `LL_FREQ[b]` with `b` a byte are the literals `b`: every length code lies above the bytes. -/
theorem Written.llIndexOf_byte {c : Config} {w : TokenWord} (hw : Written c w) (hwf : c.wf = true) (b : Byte) :
    llIndexOf c w = some b.toNat ↔ w = litWord b := by
  cases hw with
  | lit b' => simp [litWord_inj, BitVec.toNat_inj]
  | @len l i hl =>
    have hi := (Config.lenSym_bounds hwf hl).1
    have hb := b.isLt
    have hne : i ≠ b.toNat := by omega
    simp [lenWord_ne_litWord, hl, hne]
  | dist hd => simp [distWord_ne_litWord]

/-- The words that count at a length code's index of `LL_FREQ` are the `Len` words with that code. -/
theorem Written.llIndexOf_lenSym {c : Config} {w : TokenWord} (hw : Written c w) (hwf : c.wf = true) {l : HalfWord}
    {i : Nat} (hl : c.lenSym l = some i) :
    llIndexOf c w = some i ↔ w.extractLsb' 16 2 = 0b01 ∧ c.lenSym (w.extractLsb' 0 16) = some i := by
  cases hw with
  | lit b =>
    have hi := (Config.lenSym_bounds hwf hl).1
    have hb := b.isLt
    have hne : b.toNat ≠ i := by omega
    simp [hne]
  | len _ => simp
  | dist _ => simp

/-- The words that count at an index of `D_FREQ` are the `Dist` words with that code. -/
theorem Written.distIndexOf_eq {c : Config} {w : TokenWord} (hw : Written c w) (i : Nat) :
    distIndexOf c w = some i ↔ w.extractLsb' 16 2 = 0b10 ∧ c.distSym (w.extractLsb' 0 16) = some i := by
  cases hw <;> simp

/-- An index of `LL_FREQ` that a written word counts at is live and not the end-of-block index. -/
theorem Written.llIndexOf_bounds {c : Config} {w : TokenWord} (hw : Written c w) (hwf : c.wf = true) {i : Nat}
    (h : llIndexOf c w = some i) : i < c.numLitlenLive ∧ i ≠ c.eobIndex := by
  obtain ⟨-, hlive, heob, -⟩ := Config.wf_numbers hwf
  cases hw with
  | lit b =>
    have hb : b.toNat = i := by simpa using h
    have := b.isLt
    omega
  | len _ => exact (Config.lenSym_bounds hwf (by simpa using h)).2
  | dist _ => simp at h

/-- An index of `D_FREQ` that a written word counts at is an entry of it. -/
theorem Written.distIndexOf_lt {c : Config} {w : TokenWord} (hw : Written c w) (hwf : c.wf = true) {i : Nat}
    (h : distIndexOf c w = some i) : i < c.numDist :=
  Config.distSym_bound hwf ((hw.distIndexOf_eq i).1 h).2

theorem occurrences_eq_countP (index : TokenWord → Option Nat) (ws : List TokenWord) (i : Nat) :
    occurrences index ws i = ws.countP fun w => index w == some i := List.count_filterMap

theorem occurrences_le_length (index : TokenWord → Option Nat) (ws : List TokenWord) (i : Nat) :
    occurrences index ws i ≤ ws.length := by
  rw [occurrences_eq_countP]
  exact List.countP_le_length

theorem occurrences_eq_zero {index : TokenWord → Option Nat} {ws : List TokenWord} {i : Nat}
    (h : ∀ w ∈ ws, index w ≠ some i) : occurrences index ws i = 0 := by
  rw [occurrences_eq_countP]
  exact List.countP_eq_zero.2 (by simpa using h)

/-- Over a range of indices that holds them all, the occurrences add up to the number of words that count anywhere. -/
theorem sum_occurrences {index : TokenWord → Option Nat} {ws : List TokenWord} {n : Nat}
    (h : ∀ w ∈ ws, ∀ i, index w = some i → i < n) :
    ∑ i ∈ Finset.range n, occurrences index ws i = ws.countP fun w => (index w).isSome := by
  have hmem : ∀ i ∈ (ws.filterMap index : Multiset Nat), i ∈ Finset.range n := by
    intro i hi
    obtain ⟨w, hw, hwi⟩ := List.mem_filterMap.1 (Multiset.mem_coe.1 hi)
    exact Finset.mem_range.2 (h w hw i hwi)
  simpa [occurrences, List.length_filterMap_eq_countP] using Multiset.sum_count_eq_card hmem

/-- In a sequence of units with codes, the words that count in `LL_FREQ` are the `Lit` and `Len` words, and those that count
in `D_FREQ` are as many as the `Len` words: no pair is split. -/
theorem counted_entries {c : Config} {es : List Entry} (h : ∀ e ∈ es, e.coded c = true) :
    ((es.flatMap Entry.words).countP fun w => (llIndexOf c w).isSome) =
      litCount (es.flatMap Entry.words) + lenCount (es.flatMap Entry.words) ∧
    ((es.flatMap Entry.words).countP fun w => (distIndexOf c w).isSome) = lenCount (es.flatMap Entry.words) := by
  induction es with
  | nil => exact ⟨rfl, rfl⟩
  | cons e es ih =>
    obtain ⟨he, hes⟩ := List.forall_mem_cons.1 h
    obtain ⟨ihl, ihd⟩ := ih hes
    simp only [litCount, lenCount] at ihl ihd ⊢
    simp only [List.flatMap_cons, List.countP_append, ihl, ihd]
    cases e with
    | lit b =>
      simp [Entry.words]
      omega
    | pair l d =>
      obtain ⟨hl, hd⟩ := Bool.and_eq_true_iff.1 he
      simp [Entry.words, hl, hd]
      omega

/-! ### What the invariants say of the tables -/

/-- An entry of `LL_FREQ` that no buffered word counts at holds its seed, in both modes. -/
theorem State.Inv.llFreq_uncounted {s : State} (hi : s.Inv) {i : Nat} (hlt : i < s.cfg.numLitlenRaw)
    (h : ∀ w ∈ s.tok, llIndexOf s.cfg w ≠ some i) : s.llFreq[i]? = some (if i = s.cfg.eobIndex then 1 else 0) := by
  cases hm : s.cfg.mode with
  | plain => rw [(hi.plainSeeded hm).1, s.cfg.seededLL_get hlt]
  | statistical => rw [hi.llCounts hm i hlt, occurrences_eq_zero h, Nat.add_zero]

/-- The end-of-block entry is 1 (10_state.md R23 c). -/
theorem State.Inv.llFreq_eob {s : State} (hi : s.Inv) : s.llFreq[s.cfg.eobIndex]? = some 1 := by
  obtain ⟨hlive, hcodes, -, heob, -⟩ := Config.wf_numbers hi.config
  rw [hi.llFreq_uncounted (by omega) fun w hw h => ((hi.written hw).llIndexOf_bounds hi.config h).2 rfl, if_pos rfl]

/-- The entries of `LL_FREQ` that are allocated and not live are 0 (10_state.md R23 d). -/
theorem State.Inv.llFreq_not_live {s : State} (hi : s.Inv) {i : Nat} (hlo : s.cfg.numLitlenLive ≤ i)
    (hhi : i < s.cfg.numLitlenRaw) : s.llFreq[i]? = some 0 := by
  obtain ⟨-, -, -, heob, -⟩ := Config.wf_numbers hi.config
  have hcount : ∀ w ∈ s.tok, llIndexOf s.cfg w ≠ some i := fun w hw h => by
    have := ((hi.written hw).llIndexOf_bounds hi.config h).1
    omega
  rw [hi.llFreq_uncounted hhi hcount, if_neg (by omega)]

/-- No counter of `LL_FREQ` but the end-of-block entry exceeds the number of buffered words (10_state.md R23 h). -/
theorem State.Inv.llFreq_le_tokCount {s : State} (hi : s.Inv) {i v : Nat} (h : s.llFreq[i]? = some v)
    (hne : i ≠ s.cfg.eobIndex) : v ≤ s.tokCount := by
  have hlt : i < s.cfg.numLitlenRaw := by
    rw [← hi.shaped.1]
    exact (List.getElem?_eq_some_iff.1 h).1
  cases hm : s.cfg.mode with
  | plain =>
    rw [(hi.plainSeeded hm).1, s.cfg.seededLL_get hlt, if_neg hne] at h
    exact Option.some.inj h ▸ Nat.zero_le _
  | statistical =>
    rw [hi.llCounts hm i hlt, if_neg hne, Nat.zero_add] at h
    exact Option.some.inj h ▸ occurrences_le_length _ _ _

/-- No counter of `D_FREQ` exceeds the number of buffered words (10_state.md R23 h). -/
theorem State.Inv.dFreq_le_tokCount {s : State} (hi : s.Inv) {i v : Nat} (h : s.dFreq[i]? = some v) :
    v ≤ s.tokCount := by
  have hlt : i < s.cfg.numDist := by
    rw [← hi.shaped.2]
    exact (List.getElem?_eq_some_iff.1 h).1
  cases hm : s.cfg.mode with
  | plain =>
    rw [(hi.plainSeeded hm).2, s.cfg.seededD_get hlt] at h
    exact Option.some.inj h ▸ Nat.zero_le _
  | statistical =>
    rw [hi.dCounts hm i hlt] at h
    exact Option.some.inj h ▸ occurrences_le_length _ _ _

/-- Every counter is at most the number of buffered words, the end-of-block entry at most 1. -/
theorem State.Inv.counters_le {s : State} (hi : s.Inv) :
    (∀ v ∈ s.llFreq, v ≤ max 1 s.tokCount) ∧ ∀ v ∈ s.dFreq, v ≤ s.tokCount := by
  refine ⟨fun v hv => ?_, fun v hv => ?_⟩
  · obtain ⟨i, hget⟩ := List.mem_iff_getElem?.1 hv
    by_cases he : i = s.cfg.eobIndex
    · rw [he, hi.llFreq_eob] at hget
      exact Option.some.inj hget ▸ Nat.le_max_left _ _
    · exact (hi.llFreq_le_tokCount hget he).trans (Nat.le_max_right _ _)
  · obtain ⟨i, hget⟩ := List.mem_iff_getElem?.1 hv
    exact hi.dFreq_le_tokCount hget

/-- While one entry of the store is free, no counter is full (41_recorder_control_read.md R65 e). -/
theorem State.Inv.countersFit {s : State} (hi : s.Inv) (hfree : s.tokCount + 1 ≤ s.cfg.depth) : s.CountersFit := by
  obtain ⟨-, -, -, -, htwo, hdepth, -⟩ := Config.wf_numbers hi.config
  obtain ⟨hll, hd⟩ := hi.counters_le
  refine ⟨fun v hv => ?_, fun v hv => ?_⟩
  · have := hll v hv
    omega
  · have := hd v hv
    omega

/-- Every counter is below `2^CNT_W` (10_state.md R23 h). -/
theorem State.Inv.counters_lt {s : State} (hi : s.Inv) :
    (∀ v ∈ s.llFreq, v < 2 ^ s.cfg.cntW) ∧ ∀ v ∈ s.dFreq, v < 2 ^ s.cfg.cntW := by
  obtain ⟨-, -, -, -, htwo, hdepth, -⟩ := Config.wf_numbers hi.config
  obtain ⟨hll, hd⟩ := hi.counters_le
  have := hi.count
  refine ⟨fun v hv => ?_, fun v hv => ?_⟩
  · have := hll v hv
    omega
  · have := hd v hv
    omega

/-- The sum of a table whose entries are given index by index. -/
theorem sum_eq_of_getElem? {table : List Nat} {n : Nat} {f : Nat → Nat} (hn : table.length = n)
    (h : ∀ i < n, table[i]? = some (f i)) : table.sum = ∑ i ∈ Finset.range n, f i := by
  have ht : table = (List.range n).map f := by
    refine List.ext_getElem (by simpa using hn) fun i hi _ => ?_
    have := h i (hn ▸ hi)
    simpa [List.getElem?_eq_getElem hi] using this
  rw [ht]
  rfl

/-- The sum of `LL_FREQ` is the number of `Lit` and `Len` words and the end-of-block 1 (10_state.md R23 e). -/
theorem State.Inv.llFreq_sum {s : State} (hi : s.Inv) (hm : s.cfg.mode = .statistical) :
    s.llFreq.sum = litCount s.tok + lenCount s.tok + 1 := by
  obtain ⟨hlive, hcodes, -, heob, -⟩ := Config.wf_numbers hi.config
  obtain ⟨es, htok, hes⟩ := hi.pairing
  have hidx : ∀ w ∈ s.tok, ∀ i, llIndexOf s.cfg w = some i → i < s.cfg.numLitlenRaw := fun w hw i h => by
    have := ((hi.written hw).llIndexOf_bounds hi.config h).1
    omega
  have hone : (∑ i ∈ Finset.range s.cfg.numLitlenRaw, if i = s.cfg.eobIndex then 1 else 0) = 1 := by
    rw [Finset.sum_ite_eq', if_pos (Finset.mem_range.2 (by omega))]
  rw [sum_eq_of_getElem? hi.shaped.1 (hi.llCounts hm), Finset.sum_add_distrib, hone, sum_occurrences hidx, htok,
    (counted_entries hes).1, Nat.add_comm]

/-- The sum of `D_FREQ` is the number of `Len` words (10_state.md R23 e). -/
theorem State.Inv.dFreq_sum {s : State} (hi : s.Inv) (hm : s.cfg.mode = .statistical) :
    s.dFreq.sum = lenCount s.tok := by
  obtain ⟨es, htok, hes⟩ := hi.pairing
  have hidx : ∀ w ∈ s.tok, ∀ i, distIndexOf s.cfg w = some i → i < s.cfg.numDist :=
    fun w hw i h => (hi.written hw).distIndexOf_lt hi.config h
  rw [sum_eq_of_getElem? hi.shaped.2 (hi.dCounts hm), sum_occurrences hidx, htok, (counted_entries hes).2]

/-- The entry of a byte counts its literals (10_state.md R23 e). -/
theorem State.Inv.llFreq_byte {s : State} (hi : s.Inv) (hm : s.cfg.mode = .statistical) (b : Byte) :
    s.llFreq[b.toNat]? = some (s.tok.count (litWord b)) := by
  obtain ⟨hlive, hcodes, heob, -⟩ := Config.wf_numbers hi.config
  have hb := b.isLt
  rw [hi.llCounts hm _ (by omega), if_neg (by omega), Nat.zero_add, occurrences_eq_countP, List.count]
  congr 1
  exact List.countP_congr fun w hw => by simpa using (hi.written hw).llIndexOf_byte hi.config b

/-- The entry of a length code counts its `Len` words (10_state.md R23 e). -/
theorem State.Inv.llFreq_lenSym {s : State} (hi : s.Inv) (hm : s.cfg.mode = .statistical) {l : HalfWord} {i : Nat}
    (hl : s.cfg.lenSym l = some i) : s.llFreq[i]? = some
      (s.tok.countP fun w => w.extractLsb' 16 2 == 0b01 && s.cfg.lenSym (w.extractLsb' 0 16) == some i) := by
  obtain ⟨hlive, -⟩ := Config.wf_numbers hi.config
  obtain ⟨-, hi_live, hne⟩ := Config.lenSym_bounds hi.config hl
  rw [hi.llCounts hm _ (by omega), if_neg hne, Nat.zero_add, occurrences_eq_countP]
  congr 1
  exact List.countP_congr fun w hw => by simpa using (hi.written hw).llIndexOf_lenSym hi.config hl

/-- The entry of a distance code counts its `Dist` words (10_state.md R23 e). -/
theorem State.Inv.dFreq_distSym {s : State} (hi : s.Inv) (hm : s.cfg.mode = .statistical) {i : Nat}
    (h : i < s.cfg.numDist) : s.dFreq[i]? = some
      (s.tok.countP fun w => w.extractLsb' 16 2 == 0b10 && s.cfg.distSym (w.extractLsb' 0 16) == some i) := by
  rw [hi.dCounts hm i h, occurrences_eq_countP]
  congr 1
  exact List.countP_congr fun w hw => by simpa using (hi.written hw).distIndexOf_eq i

/-! ### Every event keeps the invariants -/

/-- An emptied and seeded block meets the invariants when the fault registers do. -/
theorem State.inv_of_seeded {s : State} (hwf : s.cfg.wf = true) (htok : s.tok = []) (hll : s.llFreq = s.cfg.seededLL)
    (hd : s.dFreq = s.cfg.seededD) (hcause : s.cause = 0 ↔ s.fault = false) (hnamed : s.cause.toNat ≤ 4) : s.Inv where
  config := hwf
  count := by simp [Recorder.tokCount, htok]
  pairing := ⟨[], by simp [htok]⟩
  shaped := by simp [State.Shaped, hll, hd]
  llCounts _ i hlt := by simp [hll, htok, s.cfg.seededLL_get hlt]
  dCounts _ i hlt := by simp [hd, htok, s.cfg.seededD_get hlt]
  plainSeeded _ := ⟨hll, hd⟩
  causeIffFault := hcause
  causeNamed := hnamed

/-- The invariants hold after hardware reset under every well-formed configuration. -/
theorem State.inv_initial {c : Config} (hwf : c.wf = true) : (State.initial c).Inv :=
  State.inv_of_seeded hwf rfl rfl rfl (by simp) (by simp)

/-- A faulted or refused command keeps the invariants. -/
theorem stopped_inv {s t : State} (hi : s.Inv) (h : Faulted s t ∨ Refused s t) : t.Inv := by
  obtain ⟨htf, hcfg, htok, hll, hd⟩ := stopped_frame h
  obtain ⟨-, x, rfl⟩ | ⟨-, rfl⟩ := h
  · exact hi.of_eq hcfg htok hll hd (by simpa using x.code_ne_zero) x.code_bounds.2
  · exact hi.of_eq hcfg htok hll hd hi.causeIffFault hi.causeNamed

/-- A counter update of a table that is not full adds, at each entry, how often that entry is named. -/
theorem countIn_getElem? {w : Nat} {sp : Space} {table table' : List Nat} {o : Option Nat}
    (h : countIn w sp table o = .ok table') (hfit : ∀ v ∈ table, v + 1 < 2 ^ w) {i v : Nat} (hv : table[i]? = some v) :
    table'[i]? = some (v + o.toList.count i) := by
  by_cases ho : o = some i
  · subst ho
    rw [countIn_some hv, countUp_eq (hfit v (List.mem_of_getElem? hv))] at h
    obtain rfl := Except.ok.inj h
    simp [(List.getElem?_eq_some_iff.1 hv).1]
  · rw [countIn_other h ho, hv]
    cases o with
    | none => rfl
    | some k =>
      have hk : k ≠ i := fun hk => ho (hk ▸ rfl)
      simp [hk]

/-- Words are appended and their table counts up where they count: the table still holds its seeds and the occurrences. -/
theorem countIn_occurrences {w : Nat} {sp : Space} {table table' : List Nat} {o : Option Nat}
    {index : TokenWord → Option Nat} {ws vs : List TokenWord} {i seed : Nat} (h : countIn w sp table o = .ok table')
    (hfit : ∀ v ∈ table, v + 1 < 2 ^ w) (hvs : vs.filterMap index = o.toList)
    (hget : table[i]? = some (seed + occurrences index ws i)) :
    table'[i]? = some (seed + occurrences index (ws ++ vs) i) := by
  have hnew : occurrences index vs i = o.toList.count i := by rw [occurrences, hvs]
  rw [countIn_getElem? h hfit hget, occurrences_append, hnew, Nat.add_assoc]

/-- A completed write keeps the invariants: the words of one unit with codes fit the store, and each table counts up where
they count. -/
theorem recordTokens_inv {s t : State} {e : Entry} {ll d : Option Nat} (hi : s.Inv) (he : e.coded s.cfg = true)
    (hfit : s.tokCount + e.words.length ≤ s.cfg.depth) (hll : e.words.filterMap (llIndexOf s.cfg) = ll.toList)
    (hd : e.words.filterMap (distIndexOf s.cfg) = d.toList)
    (h : deliver s (recordTokens s.cfg s.toRecorder e.words ll d) = .next t) : t.Inv := by
  have hshaped := recordTokens_shaped hi.shaped h
  have hpos : 1 ≤ e.words.length := by cases e <;> simp [Entry.words]
  obtain ⟨hllFit, hdFit⟩ := hi.countersFit (by omega)
  have hcount : (s.tok ++ e.words).length ≤ s.cfg.depth := by simpa [Recorder.tokCount] using hfit
  have hpairing : ∃ es : List Entry, s.tok ++ e.words = es.flatMap Entry.words ∧ ∀ x ∈ es, x.coded s.cfg = true := by
    obtain ⟨es, htok, hes⟩ := hi.pairing
    exact ⟨es ++ [e], by simp [htok], by simpa [or_imp, forall_and] using ⟨hes, he⟩⟩
  obtain ⟨hm, rfl⟩ | ⟨hm, llFreq, dFreq, h1, h2, rfl⟩ := recordTokens_next h
  · exact
      { config := hi.config, count := hcount, pairing := hpairing, shaped := hshaped
        llCounts := fun hs => absurd (hm.symm.trans hs) (by simp)
        dCounts := fun hs => absurd (hm.symm.trans hs) (by simp)
        plainSeeded := hi.plainSeeded, causeIffFault := hi.causeIffFault, causeNamed := hi.causeNamed }
  · exact
      { config := hi.config, count := hcount, pairing := hpairing, shaped := hshaped
        llCounts := fun _ i hlt => countIn_occurrences h1 hllFit hll (hi.llCounts hm i hlt)
        dCounts := fun _ i hlt => by
          simpa using countIn_occurrences (seed := 0) h2 hdFit hd (by simpa using hi.dCounts hm i hlt)
        plainSeeded := fun hp => absurd (hm.symm.trans hp) (by simp)
        causeIffFault := hi.causeIffFault, causeNamed := hi.causeNamed }

/-- A step that changes neither the Recorder unit nor the configuration keeps the invariants. -/
theorem State.Inv.of_toRecorder_eq {s t : State} (hi : s.Inv) (hcfg : t.cfg = s.cfg)
    (hrec : t.toRecorder = s.toRecorder) : t.Inv :=
  hi.of_eq hcfg (by rw [hrec]) (by rw [hrec]) (by rw [hrec]) (hrec ▸ hi.causeIffFault) (hrec ▸ hi.causeNamed)

/-- A command after which the unit operates keeps the invariants. -/
theorem completed_inv {s t : State} {i : Instr} (hi : s.Inv) (hne : ∀ level, i ≠ .hdr level) (h : exec i s = .next t)
    (htf : t.fault = false) : t.Inv := by
  cases i with
  | wlit b =>
    obtain ⟨hfit, h⟩ := exec_wlit_completed h htf
    exact recordTokens_inv (e := .lit b) hi rfl hfit (by simp [Entry.words, literalIndex]) (by simp [Entry.words]) h
  | wld l d =>
    obtain ⟨hfit, ls, ds, hl, hd, h⟩ := exec_wld_completed h htf
    exact recordTokens_inv (e := .pair l d) hi (by simp [Entry.coded, hl, hd]) hfit (by simp [Entry.words, hl])
      (by simp [Entry.words, hd]) h
  | rst =>
    obtain rfl := exec_rst_completed h htf
    exact State.inv_of_seeded hi.config rfl rfl rfl hi.causeIffFault hi.causeNamed
  | snap =>
    obtain ⟨hrec, hcfg⟩ := exec_read_completed (.inl rfl) h htf
    exact hi.of_toRecorder_eq hcfg hrec
  | drain =>
    obtain ⟨hrec, hcfg⟩ := exec_read_completed (.inr rfl) h htf
    exact hi.of_toRecorder_eq hcfg hrec
  | hdr level => exact absurd rfl (hne level)

/-- Every instruction that answers keeps the invariants. -/
theorem exec_inv {s t : State} {i : Instr} (hi : s.Inv) (h : exec i s = .next t) : t.Inv := by
  by_cases hhdr : ∃ level, i = .hdr level
  · obtain ⟨level, rfl⟩ := hhdr
    obtain ⟨-, rfl⟩ := exec_hdr_next h
    exact hi.of_toRecorder_eq rfl rfl
  · have hne : ∀ level, i ≠ .hdr level := not_exists.1 hhdr
    obtain ⟨-, htf, -, -⟩ | hstop := exec_outcome hne h
    · exact completed_inv hi hne h htf
    · exact stopped_inv hi hstop

/-- Every event that is answered keeps the invariants (10_state.md R23). -/
theorem acceptEvent_inv {s t : State} {e : Event} (hi : s.Inv) (h : acceptEvent e s = .next t) : t.Inv := by
  obtain ⟨_, i, -, -, he⟩ | ⟨_, _, -, -, he⟩ | ⟨m, _, -, he⟩ := acceptEvent_cases e s <;> rw [he] at h
  · exact exec_inv hi h
  · obtain ⟨-, hr | ⟨hf, rfl⟩⟩ := illegalCommand_next h
    · exact stopped_inv hi (.inr hr)
    · exact stopped_inv hi (.inl ⟨hf, _, rfl⟩)
  · obtain ⟨hwf, rfl⟩ := hardwareReset_next h
    exact State.inv_of_seeded hwf rfl rfl rfl (by simp) (by simp)

/-! ### Runs of events -/

/-- A run that is answered begins with an answered event. -/
theorem runEvents_cons_next {e : Event} {es : List Event} {s t : State} (h : runEvents (e :: es) s = .next t) :
    ∃ u, acceptEvent e s = .next u ∧ runEvents es u = .next t := by
  unfold runEvents at h
  split at h
  · exact ⟨_, ‹_›, h⟩
  · cases h
  · cases h

/-- What every answered event keeps holds at the end of an answered run. -/
theorem runEvents_keeps {P : State → Prop} (hstep : ∀ e s t, P s → acceptEvent e s = .next t → P t) {es : List Event}
    {s t : State} (hs : P s) (h : runEvents es s = .next t) : P t := by
  induction es generalizing s with
  | nil => exact Host.Outcome.next.inj h ▸ hs
  | cons e es ih =>
    obtain ⟨u, hu, h⟩ := runEvents_cons_next h
    exact ih (hstep e s u hs hu) h

/-- The invariants hold in every state reachable from hardware reset. -/
theorem reachable_inv {c : Config} {es : List Event} {s : State} (hwf : c.wf = true)
    (h : runEvents es (State.initial c) = .next s) : s.Inv :=
  runEvents_keeps (fun _ _ _ => acceptEvent_inv) (State.inv_initial hwf) h

/-- Settles O47: the state meets the invariants (`reachable_inv`), and they give each clause of the rule. -/
theorem reachableStates : Obligations.ReachableStates := by
  intro c es s hwf h
  have hi := reachable_inv hwf h
  obtain ⟨hlive, hcodes, -⟩ := Config.wf_numbers hi.config
  obtain ⟨us, htok, -⟩ := hi.pairing
  have hlast : ∀ w, s.tok.getLast? = some w → w.extractLsb' 16 2 ≠ 0b01 := fun w hw => tag_getLast_entries (htok ▸ hw)
  exact ⟨hi.count, ⟨us, htok⟩, hlast, fun w hw => (hi.written hw).tag_ne_reserved,
    fun hm => ⟨hi.llFreq_eob, hi.llFreq_sum hm, hi.dFreq_sum hm, hi.llFreq_byte hm, fun _ _ => hi.llFreq_lenSym hm,
      fun _ => hi.dFreq_distSym hm⟩,
    hi.llFreq_not_live (by omega) (by omega), hi.llFreq_not_live (by omega) (by omega), hi.plainSeeded, hi.causeIffFault,
    fun _ _ => hi.llFreq_le_tokCount, fun _ _ => hi.dFreq_le_tokCount, hi.counters_lt⟩

end Sys2Proof.Machine

/-! PROOFS. 30_encoding.md R45 to R53: a command word as a number, the rows of the command table, the token words as numbers,
and the head and payload of a response. -/

namespace Sys2Proof

/-! ### The number of a command word (R45) -/

/-- The operand fields of a word that is put together as a given `A` and `B`. -/
theorem fields_of_command_eq {op : BitVec 3} {a b : HalfWord} {w : CommandWord}
    (h : PortWord.command (commandWord op a b) = .command w) : aField w = a ∧ bField w = b := by
  obtain rfl := PortWord.command.inj h
  exact ⟨aField_commandWord op a b, bField_commandWord op a b⟩

/-- Settles O3: the number is that of the word's three fields (`commandWord_fields`, `commandWord_toNat`), and the encoder
puts A and B of each instruction into them. -/
theorem commandWordNumber : Obligations.CommandWordNumber := by
  refine ⟨fun w => ?_, fun i w h => ?_⟩
  · rw [← commandWord_toNat, commandWord_fields]
  · cases i with
    | wlit b => exact fields_of_command_eq h
    | wld l d => exact fields_of_command_eq h
    | rst => exact fields_of_command_eq h
    | snap => exact fields_of_command_eq h
    | drain => exact fields_of_command_eq h
    | hdr level => cases h

/-! ### The rows of the command table (R47) -/

theorem commandWord_and (o o' : BitVec 3) (a a' b b' : HalfWord) :
    commandWord o a b &&& commandWord o' a' b' = commandWord (o &&& o') (a &&& a') (b &&& b') :=
  BitVec.and_append.trans (congrArg (· ++ (b &&& b')) BitVec.and_append)

/-- A word is compared under a mask field by field. -/
theorem and_commandWord_eq_iff (w : CommandWord) (m p : BitVec 3) (ma pa mb pb : HalfWord) :
    w &&& commandWord m ma mb = commandWord p pa pb ↔ opField w &&& m = p ∧ aField w &&& ma = pa ∧ bField w &&& mb = pb := by
  conv_lhs => rw [← commandWord_fields w]
  rw [commandWord_and, commandWord_inj]

/-- The mask `0xFF00` of `B` leaves `B[15:8]`. -/
theorem bField_and_high_eq_zero_iff (w : CommandWord) : bField w &&& 0xFF00 = 0 ↔ bHighField w = 0 := by
  have hb : bHighField w ++ bLowField w = bField w := BitVec.extractLsb'_append_extractLsb'_eq_extractLsb' rfl
  have hm : bField w &&& 0xFF00 = bHighField w ++ 0#8 := by
    rw [← hb, show (0xFF00 : HalfWord) = BitVec.allOnes 8 ++ 0#8 from rfl, BitVec.and_append, BitVec.and_allOnes,
      BitVec.and_zero]
  rw [hm]
  refine ⟨fun h => ?_, fun h => by simp [h]⟩
  have hh := congrArg (BitVec.extractLsb' 8 8) h
  rwa [BitVec.extractLsb'_append_eq_left] at hh

theorem selects_wlit_iff (w : CommandWord) :
    w &&& 0x7FFFFFF00 = 0x100000000 ↔ opField w = 1 ∧ aField w = 0 ∧ bHighField w = 0 := by
  have h := and_commandWord_eq_iff w (BitVec.allOnes 3) 1 (BitVec.allOnes 16) 0 0xFF00 0
  rwa [BitVec.and_allOnes, BitVec.and_allOnes, bField_and_high_eq_zero_iff] at h

theorem selects_wld_iff (w : CommandWord) : w &&& 0x700000000 = 0x200000000 ↔ opField w = 2 := by
  have h := and_commandWord_eq_iff w (BitVec.allOnes 3) 2 0 0 0 0
  exact h.trans (by rw [BitVec.and_allOnes]; simp)

/-- The mask of RST, SNAP and DRAIN compares the whole word. -/
theorem selects_bare_iff (w : CommandWord) (op : BitVec 3) :
    w &&& 0x7FFFFFFFF = commandWord op 0 0 ↔ opField w = op ∧ aField w = 0 ∧ bField w = 0 := by
  have h := and_commandWord_eq_iff w (BitVec.allOnes 3) op (BitVec.allOnes 16) 0 (BitVec.allOnes 16) 0
  rwa [BitVec.and_allOnes, BitVec.and_allOnes, BitVec.and_allOnes] at h

/-- The word is a spelling of the instruction: its `op`, its reserved bits and its operands (R46, R47). -/
def Spells (w : CommandWord) : Instr → Prop
  | .wlit b => opField w = 1 ∧ aField w = 0 ∧ bHighField w = 0 ∧ b = bLowField w
  | .wld length distance => opField w = 2 ∧ length = aField w ∧ distance = bField w
  | .rst => opField w = 3 ∧ aField w = 0 ∧ bField w = 0
  | .snap => opField w = 4 ∧ aField w = 0 ∧ bField w = 0
  | .drain => opField w = 5 ∧ aField w = 0 ∧ bField w = 0
  | .hdr _ => False

/-- A word decodes to exactly the instruction it spells. -/
theorem decodeCommand_ok_iff {w : CommandWord} {i : Instr} : decodeCommand w = .ok i ↔ Spells w i := by
  constructor
  · intro h
    rcases decodeCommand_cases w with ⟨ho, ha, hb, hd⟩ | ⟨ho, hd⟩ | ⟨ho, ha, hb, hd⟩ | ⟨ho, ha, hb, hd⟩ |
      ⟨ho, ha, hb, hd⟩ | ⟨-, hd⟩ | ⟨-, -, hd⟩ | ⟨-, -, hd⟩ <;> rw [hd] at h <;> cases h
    · exact ⟨ho, ha, hb, rfl⟩
    · exact ⟨ho, rfl, rfl⟩
    · exact ⟨ho, ha, hb⟩
    · exact ⟨ho, ha, hb⟩
    · exact ⟨ho, ha, hb⟩
  · cases i with
    | wlit b => rintro ⟨ho, ha, hb, rfl⟩; simp [decodeCommand, ho, ha, hb]
    | wld l d => rintro ⟨ho, rfl, rfl⟩; simp [decodeCommand, ho]
    | rst => rintro ⟨ho, ha, hb⟩; simp [decodeCommand, decodeBare, ho, ha, hb]
    | snap => rintro ⟨ho, ha, hb⟩; simp [decodeCommand, decodeBare, ho, ha, hb]
    | drain => rintro ⟨ho, ha, hb⟩; simp [decodeCommand, decodeBare, ho, ha, hb]
    | hdr level => exact False.elim

/-- A word that spells an instruction selects the instruction's row. -/
theorem Spells.selects {w : CommandWord} {i : Instr} (h : Spells w i) :
    ∃ r ∈ commandTable, w &&& r.mask = r.pattern ∧ r.mnemonic = i.mnemonic := by
  cases i with
  | wlit b =>
    obtain ⟨ho, ha, hb, -⟩ := h
    exact ⟨⟨"WLIT", 0x100000000, 0x7FFFFFF00⟩, by simp [commandTable], (selects_wlit_iff w).2 ⟨ho, ha, hb⟩, rfl⟩
  | wld l d =>
    obtain ⟨ho, -, -⟩ := h
    exact ⟨⟨"WLD", 0x200000000, 0x700000000⟩, by simp [commandTable], (selects_wld_iff w).2 ho, rfl⟩
  | rst => exact ⟨⟨"RST", 0x300000000, 0x7FFFFFFFF⟩, by simp [commandTable], (selects_bare_iff w 3).2 h, rfl⟩
  | snap => exact ⟨⟨"SNAP", 0x400000000, 0x7FFFFFFFF⟩, by simp [commandTable], (selects_bare_iff w 4).2 h, rfl⟩
  | drain => exact ⟨⟨"DRAIN", 0x500000000, 0x7FFFFFFFF⟩, by simp [commandTable], (selects_bare_iff w 5).2 h, rfl⟩
  | hdr level => exact h.elim

/-- A word that selects a row spells an instruction of that row. -/
theorem spells_of_selects {w : CommandWord} {r : CommandRow} (hr : r ∈ commandTable) (h : w &&& r.mask = r.pattern) :
    ∃ i, Spells w i ∧ i.mnemonic = r.mnemonic := by
  simp only [commandTable, List.mem_cons, List.not_mem_nil, or_false] at hr
  obtain rfl | rfl | rfl | rfl | rfl := hr
  · obtain ⟨ho, ha, hb⟩ := (selects_wlit_iff w).1 h
    exact ⟨.wlit (bLowField w), ⟨ho, ha, hb, rfl⟩, rfl⟩
  · exact ⟨.wld (aField w) (bField w), ⟨(selects_wld_iff w).1 h, rfl, rfl⟩, rfl⟩
  · exact ⟨.rst, (selects_bare_iff w 3).1 h, rfl⟩
  · exact ⟨.snap, (selects_bare_iff w 4).1 h, rfl⟩
  · exact ⟨.drain, (selects_bare_iff w 5).1 h, rfl⟩

/-- Settles O4: selecting a row and spelling an instruction of it are the same (`Spells.selects`, `spells_of_selects`), and
the decoder answers the one instruction a word spells, so two selected rows have one mnemonic and are one row. -/
theorem wordSelectsRow : Obligations.WordSelectsRow := by
  intro w
  have hdecodes : ∀ r ∈ commandTable, w &&& r.mask = r.pattern →
      ∃ i, decodeCommand w = .ok i ∧ i.mnemonic = r.mnemonic := fun r hr h => by
    obtain ⟨i, hi, hm⟩ := spells_of_selects hr h
    exact ⟨i, decodeCommand_ok_iff.2 hi, hm⟩
  refine ⟨fun i h => (decodeCommand_ok_iff.1 h).selects, hdecodes, fun r hr q hq h h' => ?_, fun b h => ?_, fun l d h => ?_⟩
  · obtain ⟨i, hi, hm⟩ := hdecodes r hr h
    obtain ⟨j, hj, hm'⟩ := hdecodes q hq h'
    obtain rfl : i = j := Except.ok.inj (hi.symm.trans hj)
    have hrows : ∀ r ∈ commandTable, ∀ q ∈ commandTable, r.mnemonic = q.mnemonic → r = q := by decide
    exact hrows r hr q hq (hm.symm.trans hm')
  · obtain ⟨-, -, -, hb⟩ := decodeCommand_ok_iff.1 h
    exact hb
  · obtain ⟨-, hl, hd⟩ := decodeCommand_ok_iff.1 h
    exact ⟨hl, hd⟩

end Sys2Proof

namespace Sys2Proof.Machine

/-! ### Token words (R50) -/

theorem litWord_toNat (b : Byte) : (litWord b).toNat = b.toNat := by
  have hb : (b.setWidth 16).toNat = b.toNat := BitVec.toNat_setWidth_of_le (by decide)
  rw [litWord, tokenWord_toNat, hb]
  exact Nat.zero_add _

theorem lenWord_toNat (l : HalfWord) : (lenWord l).toNat = 0x10000 + l.toNat := tokenWord_toNat 0b01 l

theorem distWord_toNat (d : HalfWord) : (distWord d).toNat = 0x20000 + d.toNat := tokenWord_toNat 0b10 d

/-- A token word is made of its tag and its value. -/
theorem tokenWord_fields (w : TokenWord) : tokenWord (w.extractLsb' 16 2) (w.extractLsb' 0 16) = w :=
  BitVec.extractLsb'_append_extractLsb'

/-- A value whose high byte is 0 is its low byte, zero-extended. -/
theorem setWidth_low_of_high_eq_zero {v : HalfWord} (h : v.extractLsb' 8 8 = (0 : Byte)) :
    (v.extractLsb' 0 8).setWidth 16 = v := by
  have hn : (v.extractLsb' 8 8).toNat = 0 := congrArg BitVec.toNat h
  apply BitVec.eq_of_toNat_eq
  simp only [BitVec.extractLsb'_toNat, BitVec.toNat_setWidth, Nat.shiftRight_eq_div_pow] at hn ⊢
  omega

theorem readToken_tokenOf (t : Token) : readToken (tokenOf t) = some t := by
  cases t with
  | literal b => exact readToken_litWord b
  | length l => exact readToken_lenWord l
  | distance d => exact readToken_distWord d

/-- A word that reads as a tagged value is the word of that value. -/
theorem tokenOf_of_readToken {w : TokenWord} {t : Token} (h : readToken w = some t) : tokenOf t = w := by
  have hw := tokenWord_fields w
  simp only [readToken] at h
  split_ifs at h with h0 hb h1 h2 <;> obtain rfl := Option.some.inj h
  · rw [tokenOf, litWord, setWidth_low_of_high_eq_zero hb, ← h0, hw]
  · rw [tokenOf, lenWord, ← h1, hw]
  · rw [tokenOf, distWord, ← h2, hw]

/-- Settles O6: the numbers are `tokenWord_toNat` at the three tags, and reading is the inverse of writing. -/
theorem tokenWordNumbers : Obligations.TokenWordNumbers :=
  ⟨litWord_toNat, lenWord_toNat, distWord_toNat, readToken_tokenOf, fun _ _ => tokenOf_of_readToken⟩

/-! ### The head and payload of a response (R53) -/

/-- The payload of a completed command (30_encoding.md R53). -/
def completedPayload (s : State) : Instr → Payload
  | .drain => { tokens := s.tok }
  | .snap => { ll := s.llFreq.take s.cfg.numLitlenLive, dd := s.dFreq.take s.cfg.numDist }
  | .wlit _ | .wld _ _ | .rst | .hdr _ => {}

/-- Recorded tokens are answered with an empty payload. -/
theorem recordTokens_responses {s t : State} {ws : List TokenWord} {ll d : Option Nat}
    (h : deliver s (recordTokens s.cfg s.toRecorder ws ll d) = .next t) :
    t.responses = s.responses ++ [okResponse {}] := by
  obtain ⟨-, rfl⟩ | ⟨-, _, _, -, -, rfl⟩ := recordTokens_next h <;> rfl

/-- A SNAP after which the unit operates read tables that hold what it reads. -/
theorem exec_snap_completed {s t : State} (h : exec .snap s = .next t) (htf : t.fault = false) :
    s.cfg.numLitlenLive ≤ s.llFreq.length ∧ s.cfg.numDist ≤ s.dFreq.length ∧
      t = s.answer s.toRecorder (okResponse (completedPayload s .snap)) := by
  obtain ⟨-, hr | ⟨-, -, rfl⟩ | ⟨-, -, hll, hdd, rfl⟩⟩ := exec_snap_next h
  · simp [Refused.fault_eq hr] at htf
  · simp at htf
  · exact ⟨hll, hdd, rfl⟩

/-- A DRAIN after which the unit operates has answered the buffered tokens. -/
theorem exec_drain_completed {s t : State} (h : exec .drain s = .next t) (htf : t.fault = false) :
    t = s.answer s.toRecorder (okResponse (completedPayload s .drain)) := by
  obtain ⟨-, hr | ⟨-, rfl⟩⟩ := exec_drain_next h
  · simp [Refused.fault_eq hr] at htf
  · rfl

/-- An instruction of the command port after which the unit operates has answered OK with its own payload. -/
theorem exec_completed_responses {s t : State} {i : Instr} (hi : ∀ level, i ≠ .hdr level) (h : exec i s = .next t)
    (htf : t.fault = false) : t.responses = s.responses ++ [okResponse (completedPayload s i)] := by
  cases i with
  | wlit b =>
    obtain ⟨-, hrec⟩ := exec_wlit_completed h htf
    exact recordTokens_responses hrec
  | wld l d =>
    obtain ⟨-, _, _, -, -, hrec⟩ := exec_wld_completed h htf
    exact recordTokens_responses hrec
  | rst => rw [exec_rst_completed h htf]; rfl
  | snap =>
    obtain ⟨-, -, rfl⟩ := exec_snap_completed h htf
    rfl
  | drain => rw [exec_drain_completed h htf]; rfl
  | hdr level => exact absurd rfl (hi level)

/-- A command that stops leaves the unit in the fault state and answers `CAUSE` with an empty payload. -/
theorem stopped_responses {s t : State} (h : Faulted s t ∨ Refused s t) :
    t.fault = true ∧ t.responses = s.responses ++ [errResponse t.cause] := by
  obtain ⟨-, _, rfl⟩ | ⟨hf, rfl⟩ := h
  · exact ⟨rfl, rfl⟩
  · exact ⟨hf, rfl⟩

/-- The response of a command word: OK with the payload of its instruction, or ERR. -/
theorem acceptCommand_response {s t : State} {w : CommandWord} {r : Response} (h : acceptCommand w s = .next t)
    (hr : t.responses = s.responses ++ [r]) :
    (t.fault = false ∧ ∃ i, decodeCommand w = .ok i ∧ exec i s = .next t ∧ r = okResponse (completedPayload s i)) ∨
    (t.fault = true ∧ r = errResponse t.cause) := by
  have last_eq {r' : Response} (h' : t.responses = s.responses ++ [r']) : r = r' :=
    List.singleton_injective (List.append_cancel_left (hr.symm.trans h'))
  obtain ⟨⟨-, htf, -, -⟩, i, hd, he⟩ | hstop := acceptCommand_outcome h
  · have hi : ∀ level, i ≠ .hdr level := fun level hl => decodeCommand_not_hdr w level (hl ▸ hd)
    rw [he] at h
    exact .inl ⟨htf, i, hd, h, last_eq (exec_completed_responses hi h htf)⟩
  · obtain ⟨htf, hresp⟩ := stopped_responses hstop
    exact .inr ⟨htf, last_eq hresp⟩

/-- Only DRAIN and SNAP have a payload. -/
theorem completedPayload_eq_empty {i : Instr} (s : State) (hd : i ≠ .drain) (hs : i ≠ .snap) :
    completedPayload s i = {} := by
  cases i with
  | drain => exact absurd rfl hd
  | snap => exact absurd rfl hs
  | wlit _ | wld _ _ | rst | hdr _ => rfl

/-- Settles O14: the response is OK with the payload of the decoded instruction, or ERR with `CAUSE`
(`acceptCommand_response`). -/
theorem responseHeads : Obligations.ResponseHeads := by
  intro s t w r h hr
  obtain ⟨htf, i, hd, he, rfl⟩ | ⟨htf, rfl⟩ := acceptCommand_response h hr
  · refine ⟨by simp [okResponse, htf], fun _ => rfl, by simp [okResponse], fun _ hw => ?_, fun _ hw => ?_, fun hw => ?_⟩
    · obtain rfl := Except.ok.inj (hd.symm.trans hw)
      exact ⟨rfl, rfl⟩
    · obtain rfl := Except.ok.inj (hd.symm.trans hw)
      obtain ⟨hll, hdd, -⟩ := exec_snap_completed he htf
      exact ⟨rfl, List.length_take_of_le hll, List.length_take_of_le hdd⟩
    · obtain hok | ⟨hdrain, hsnap⟩ := hw
      · simp [okResponse] at hok
      · exact completedPayload_eq_empty s (fun hi => hdrain (hi ▸ hd)) (fun hi => hsnap (hi ▸ hd))
  · simp [errResponse, htf]

end Sys2Proof.Machine

/-! PROOFS. 40_recorder_writes.md R58 to R61: the prologue of a command, WLIT and WLD whole, and the agreement of the two
modes. -/

namespace Sys2Proof

/-! ### Command words and lookups -/

/-- A command word is the number of its fields (30_encoding.md R45). -/
theorem commandWord_eq_ofNat (op : BitVec 3) (a b : HalfWord) :
    commandWord op a b = BitVec.ofNat 35 (op.toNat * 2 ^ 32 + a.toNat * 2 ^ 16 + b.toNat) := by
  rw [← commandWord_toNat, BitVec.ofNat_toNat, BitVec.setWidth_eq]

/-- SNAP has one spelling. -/
theorem decodeCommand_snap_iff {w : CommandWord} : decodeCommand w = .ok .snap ↔ w = 0x400000000 := by
  refine ⟨fun h => ?_, fun h => by subst h; decide⟩
  obtain ⟨ho, ha, hb⟩ := decodeCommand_ok_iff.1 h
  rw [← commandWord_fields w, ho, ha, hb]
  rfl

theorem Config.lenSym_withMode (c : Config) (m : Mode) (l : HalfWord) :
    Config.lenSym { c with mode := m } l = c.lenSym l := rfl

theorem Config.distSym_withMode (c : Config) (m : Mode) (d : HalfWord) :
    Config.distSym { c with mode := m } d = c.distSym d := rfl

end Sys2Proof

namespace Sys2Proof.Machine

/-! ### The prologue (R58) -/

/-- A word is illegal when it decodes to nothing, or spells SNAP in Plain mode (30_encoding.md R48). -/
theorem illegalWord_iff {c : Config} {w : CommandWord} :
    IllegalWord c w ↔ (∃ r, decodeCommand w = .error r) ∨ (decodeCommand w = .ok .snap ∧ c.mode = .plain) := by
  rcases decodeCommand_cases w with ⟨ho, ha, hb, hd⟩ | ⟨ho, hd⟩ | ⟨ho, ha, hb, hd⟩ | ⟨ho, ha, hb, hd⟩ |
    ⟨ho, ha, hb, hd⟩ | ⟨ho, hd⟩ | ⟨ho, hbits, hd⟩ | ⟨ho, hbits, hd⟩
  · simp [IllegalWord, ho, ha, hb, hd]
  · simp [IllegalWord, ho, hd]
  · simp [IllegalWord, ho, ha, hb, hd]
  · simp [IllegalWord, ho, ha, hb, hd]
  · simp [IllegalWord, ho, ha, hb, hd]
  · exact iff_of_true (by tauto) (.inl ⟨_, hd⟩)
  · exact iff_of_true (by tauto) (.inl ⟨_, hd⟩)
  · exact iff_of_true (by tauto) (.inl ⟨_, hd⟩)

/-- SNAP in Plain mode raises BAD_CMD. -/
theorem exec_snap_of_plain {s : State} (hwf : s.cfg.wf = true) (hf : s.fault = false) (hm : s.cfg.mode = .plain) :
    exec .snap s = .next (faultedWith .badCmd s) := by
  refine (command_of_good hwf hf rfl).trans ?_
  rw [hm]
  rfl

/-- In the fault state every command word is refused, legal or not (60_exceptions.md R80). -/
theorem acceptCommand_of_faulted {s : State} (hwf : s.cfg.wf = true) (hf : s.fault = true) (w : CommandWord) :
    acceptCommand w s = .next (refusedIn s) := by
  cases hd : decodeCommand w with
  | ok i =>
    rw [acceptCommand_ok s hd]
    cases i with
    | wlit b => exact command_of_faulted hwf hf rfl
    | wld l d => exact command_of_faulted hwf hf rfl
    | rst => exact command_of_faulted hwf hf rfl
    | snap => exact command_of_faulted hwf hf rfl
    | drain => exact command_of_faulted hwf hf rfl
    | hdr level => exact absurd hd (decodeCommand_not_hdr w level)
  | error r => rw [acceptCommand_error s hd]; exact command_of_faulted hwf hf rfl

/-- An operating unit answers an illegal word with BAD_CMD (60_exceptions.md R77). -/
theorem acceptCommand_of_illegal {s : State} {w : CommandWord} (hwf : s.cfg.wf = true) (hf : s.fault = false)
    (hw : IllegalWord s.cfg w) : acceptCommand w s = .next (faultedWith .badCmd s) := by
  obtain ⟨r, hd⟩ | ⟨hd, hm⟩ := illegalWord_iff.1 hw
  · rw [acceptCommand_error s hd]
    exact (command_of_good hwf hf rfl).trans rfl
  · rw [acceptCommand_ok s hd]
    exact exec_snap_of_plain hwf hf hm

/-- Settles O11: the fault state refuses before the word is looked at, an illegal word raises BAD_CMD, and any other word
executes the instruction it spells (`decodeCommand_ok_iff`). -/
theorem prologueDecidesInOrder : Obligations.PrologueDecidesInOrder := by
  intro s w hwf
  refine ⟨fun hf => acceptCommand_of_faulted hwf hf w, acceptCommand_of_illegal hwf, fun _ hw => ?_⟩
  cases hd : decodeCommand w with
  | error r => exact absurd (illegalWord_iff.2 (.inl ⟨r, hd⟩)) hw
  | ok i =>
    have he := acceptCommand_ok s hd
    have hspells := decodeCommand_ok_iff.1 hd
    cases i with
    | wlit b =>
      obtain ⟨ho, -, -, rfl⟩ := hspells
      exact .inl ⟨ho, he⟩
    | wld l d =>
      obtain ⟨ho, rfl, rfl⟩ := hspells
      exact .inr (.inl ⟨ho, he⟩)
    | rst => exact .inr (.inr (.inl ⟨hspells.1, he⟩))
    | snap => exact .inr (.inr (.inr (.inl ⟨hspells.1, he⟩)))
    | drain => exact .inr (.inr (.inr (.inr ⟨hspells.1, he⟩)))
    | hdr level => exact hspells.elim

/-! ### A write that fits -/

/-- A counter of an update counts up by one in Statistical mode only. -/
def counted (c : Config) (table : List Nat) : Option Nat → List Nat
  | none => table
  | some i => if c.mode = .statistical then table.modify i (· + 1) else table

theorem counted_of_plain {c : Config} (hm : c.mode = .plain) (table : List Nat) (o : Option Nat) :
    counted c table o = table := by
  cases o with
  | none => rfl
  | some i => exact if_neg (by simp [hm])

/-- A counter update of a table that has the entry and is not full adds one there. -/
theorem countIn_of_fit {c : Config} {sp : Space} {table : List Nat} {o : Option Nat} (hm : c.mode = .statistical)
    (hlt : ∀ k, o = some k → k < table.length) (hfit : ∀ v ∈ table, v + 1 < 2 ^ c.cntW) :
    countIn c.cntW sp table o = .ok (counted c table o) := by
  cases o with
  | none => rfl
  | some i =>
    obtain ⟨v, hi⟩ : ∃ v, table[i]? = some v := ⟨_, List.getElem?_eq_getElem (hlt i rfl)⟩
    rw [countIn_some hi, countUp_eq (hfit v (List.mem_of_getElem? hi)), set_succ_eq_modify hi, counted, if_pos hm]

/-- Recording tokens where the counters exist and are not full, in both modes. -/
theorem recordTokens_of_fit {s : State} {ws : List TokenWord} {ll d : Option Nat} (hfit : s.CountersFit)
    (hll : ∀ k, ll = some k → k < s.llFreq.length) (hd : ∀ k, d = some k → k < s.dFreq.length) :
    recordTokens s.cfg s.toRecorder ws ll d =
      .ok ((s.toRecorder.append ws).setTables (counted s.cfg s.llFreq ll) (counted s.cfg s.dFreq d), okResponse {}) := by
  cases hm : s.cfg.mode with
  | plain =>
    rw [counted_of_plain hm, counted_of_plain hm]
    simp only [recordTokens, hm]
    rfl
  | statistical => simp only [recordTokens, hm, countIn_of_fit hm hll hfit.1, countIn_of_fit hm hd hfit.2]

/-- The count and the derived flags after words have been appended (10_state.md R16, R20). -/
theorem flags_of_append {s t : State} {ws : List TokenWord} (htok : t.tok = s.tok ++ ws) (hcfg : t.cfg = s.cfg)
    (hpos : 0 < ws.length) :
    t.tokCount = s.tokCount + ws.length ∧ t.empty = false ∧ t.full = decide (s.tokCount + ws.length = s.cfg.depth) := by
  have hcount : t.tokCount = s.tokCount + ws.length := by simp [Recorder.tokCount, htok]
  refine ⟨hcount, decide_eq_false ?_, by rw [State.full, hcount, hcfg]⟩
  omega

/-! ### WLIT (R59) -/

theorem litWord_eq_setWidth (b : Byte) : litWord b = b.setWidth 18 := by
  apply BitVec.eq_of_toNat_eq
  rw [litWord_toNat, BitVec.toNat_setWidth_of_le (by decide)]

theorem exec_wlit_of_overflow {s : State} {b : Byte} (hwf : s.cfg.wf = true) (hf : s.fault = false)
    (hfull : s.cfg.depth < s.tokCount + 1) : exec (.wlit b) s = .next (faultedWith .overflow s) := by
  refine (command_of_good hwf hf rfl).trans ?_
  rw [if_pos hfull]
  rfl

theorem exec_wlit_of_room {s : State} {b : Byte} (hwf : s.cfg.wf = true) (hf : s.fault = false)
    (hroom : s.tokCount + 1 ≤ s.cfg.depth) :
    exec (.wlit b) s =
      deliver s (recordTokens s.cfg s.toRecorder [litWord b] (some (literalIndex b)) none) := by
  refine (command_of_good hwf hf rfl).trans ?_
  rw [if_neg (Nat.not_lt.2 hroom)]

/-- Settles O15: with room the literal is recorded and its counter, which exists and is not full, counts up
(`recordTokens_of_fit`); without room the command raises OVERFLOW. -/
theorem wlitExecutes : Obligations.WlitExecutes := by
  rintro s b ⟨hwf, hs, hf⟩
  refine ⟨?_, ?_, exec_wlit_of_overflow hwf hf⟩
  · have hb : (b.setWidth 16).toNat = b.toNat := BitVec.toNat_setWidth_of_le (by decide)
    rw [encode, commandWord_eq_ofNat, hb]
    rfl
  · intro hfit hroom t
    refine ⟨?_, flags_of_append (t := t) rfl rfl Nat.one_pos⟩
    rw [exec_wlit_of_room hwf hf hroom,
      recordTokens_of_fit hfit (by simpa using literalIndex_lt_llFreq hwf hs b) (by simp), litWord_eq_setWidth]
    rfl

/-! ### WLD (R60) -/

/-- A token word is the sum of its tag's and its value's numbers (30_encoding.md R50). -/
theorem tokenWord_eq_add (tag : BitVec 2) (val : HalfWord) :
    tokenWord tag val = BitVec.ofNat 18 (tag.toNat * 2 ^ 16) + val.setWidth 18 := by
  rw [← BitVec.ofNat_toNat, ← BitVec.ofNat_add, ← tokenWord_toNat, BitVec.ofNat_toNat, BitVec.setWidth_eq]

theorem lenWord_eq_add (l : HalfWord) : lenWord l = 0x10000 + l.setWidth 18 := tokenWord_eq_add 0b01 l

theorem distWord_eq_add (d : HalfWord) : distWord d = 0x20000 + d.setWidth 18 := tokenWord_eq_add 0b10 d

section
variable {s : State} {l d : HalfWord} (hwf : s.cfg.wf = true) (hf : s.fault = false)
include hwf hf

theorem exec_wld_of_badLength (hl : s.cfg.lenSym l = none) : exec (.wld l d) s = .next (faultedWith .badLength s) := by
  refine (command_of_good hwf hf rfl).trans ?_
  rw [hl]
  rfl

theorem exec_wld_of_badDistance {ls : Nat} (hl : s.cfg.lenSym l = some ls) (hd : s.cfg.distSym d = none) :
    exec (.wld l d) s = .next (faultedWith .badDistance s) := by
  refine (command_of_good hwf hf rfl).trans ?_
  rw [hl, hd]
  rfl

theorem exec_wld_of_overflow {ls ds : Nat} (hl : s.cfg.lenSym l = some ls) (hd : s.cfg.distSym d = some ds)
    (hfull : s.cfg.depth < s.tokCount + 2) : exec (.wld l d) s = .next (faultedWith .overflow s) := by
  refine (command_of_good hwf hf rfl).trans ?_
  simp only [hl, hd]
  rw [if_pos hfull]
  rfl

theorem exec_wld_of_room {ls ds : Nat} (hl : s.cfg.lenSym l = some ls) (hd : s.cfg.distSym d = some ds)
    (hroom : s.tokCount + 2 ≤ s.cfg.depth) :
    exec (.wld l d) s =
      deliver s (recordTokens s.cfg s.toRecorder [lenWord l, distWord d] (some ls) (some ds)) := by
  refine (command_of_good hwf hf rfl).trans ?_
  simp only [hl, hd]
  rw [if_neg (Nat.not_lt.2 hroom)]

end

/-- Settles O16: each check that fails raises its cause before anything is written; with both codes and room the pair is
recorded and its two counters, which exist and are not full, count up (`recordTokens_of_fit`). -/
theorem wldExecutes : Obligations.WldExecutes := by
  rintro s l d ⟨hwf, hs, hf⟩
  refine ⟨?_, exec_wld_of_badLength hwf hf, fun _ => exec_wld_of_badDistance hwf hf,
    fun _ _ => exec_wld_of_overflow hwf hf, ?_⟩
  · rw [encode, commandWord_eq_ofNat]
    rfl
  · intro ls ds hl hd hfit hroom t
    refine ⟨?_, flags_of_append (t := t) rfl rfl Nat.two_pos⟩
    rw [exec_wld_of_room hwf hf hl hd hroom, recordTokens_of_fit hfit (by simpa using lenSym_lt_llFreq hwf hs hl)
      (by simpa using distSym_lt_dFreq hwf hs hd), lenWord_eq_add, distWord_eq_add]
    rfl

/-! ### The two modes (R61) -/

/-- Two Recorder units that agree in all but their tables. -/
structure AgreeButTables (r r' : Recorder) : Prop where
  tok : r.tok = r'.tok
  fault : r.fault = r'.fault
  cause : r.cause = r'.cause

/-- Both units answer their command, with one response, and agree again in all but their tables. -/
def AgreeingResults (o o' : CommandResult) : Prop :=
  ∃ r r' x, o = .ok (r, x) ∧ o' = .ok (r', x) ∧ AgreeButTables r r'

section
variable {r r' : Recorder} (h : AgreeButTables r r')
include h

theorem AgreeButTables.tokCount : r.tokCount = r'.tokCount := congrArg List.length h.tok

theorem raise_agreeing (x : Cause) : AgreeingResults (raise x r) (raise x r') :=
  ⟨_, _, _, rfl, rfl, h.tok, rfl, rfl⟩

theorem prologue_agreeing {o o' : CommandResult} (ho : AgreeingResults o o') :
    AgreeingResults (prologue r o) (prologue r' o') := by
  cases hf : r'.fault with
  | true =>
    rw [prologue_of_faulted (h.fault.trans hf), prologue_of_faulted hf, h.cause]
    exact ⟨_, _, _, rfl, rfl, h⟩
  | false => rwa [prologue_of_good (h.fault.trans hf), prologue_of_good hf]

/-- Recorded tokens are appended in both modes, and the counters of the Statistical unit are all that differs. -/
theorem recordTokens_agreeing {c : Config} {ws : List TokenWord} {ll d : Option Nat}
    (hll : ∀ k, ll = some k → k < r'.llFreq.length) (hd : ∀ k, d = some k → k < r'.dFreq.length) :
    AgreeingResults (recordTokens { c with mode := .plain } r ws ll d) (recordTokens c r' ws ll d) := by
  obtain ⟨⟨r'', x⟩, ho⟩ := recordTokens_answers (c := c) (ws := ws) hll hd
  have htok : r.tok ++ ws = r'.tok ++ ws := by rw [h.tok]
  obtain ⟨rfl, ⟨-, rfl⟩ | ⟨-, _, _, -, -, rfl⟩⟩ := recordTokens_ok ho
  · exact ⟨_, _, _, rfl, ho, htok, h.fault, h.cause⟩
  · exact ⟨_, _, _, rfl, ho, htok, h.fault, h.cause⟩

theorem wlitRule_agreeing {c : Config} {b : Byte} (hb : literalIndex b < r'.llFreq.length) :
    AgreeingResults (wlitRule b { c with mode := .plain } r) (wlitRule b c r') := by
  refine prologue_agreeing h ?_
  rw [h.tokCount]
  split
  · exact raise_agreeing h _
  · exact recordTokens_agreeing h (by simpa using hb) (by simp)

theorem wldRule_agreeing {c : Config} {l d : HalfWord} (hll : ∀ k, c.lenSym l = some k → k < r'.llFreq.length)
    (hdd : ∀ k, c.distSym d = some k → k < r'.dFreq.length) :
    AgreeingResults (wldRule l d { c with mode := .plain } r) (wldRule l d c r') := by
  refine prologue_agreeing h ?_
  rw [Config.lenSym_withMode, Config.distSym_withMode, h.tokCount]
  cases hl : c.lenSym l with
  | none => exact raise_agreeing h _
  | some ls =>
    cases hd : c.distSym d with
    | none => exact raise_agreeing h _
    | some ds =>
      dsimp only
      split
      · exact raise_agreeing h _
      · exact recordTokens_agreeing h (hl ▸ hll) (hd ▸ hdd)

theorem rstRule_agreeing {c : Config} : AgreeingResults (rstRule { c with mode := .plain } r) (rstRule c r') :=
  prologue_agreeing h ⟨_, _, _, rfl, rfl, rfl, h.fault, h.cause⟩

theorem drainRule_agreeing {c c' : Config} : AgreeingResults (drainRule c r) (drainRule c' r') :=
  prologue_agreeing h ⟨r, r', _, rfl, by rw [h.tok], h⟩

theorem illegalRule_agreeing {c c' : Config} : AgreeingResults (illegalRule c r) (illegalRule c' r') :=
  prologue_agreeing h (raise_agreeing h _)

end

theorem Twins.agree {p t : State} (h : Twins p t) : AgreeButTables p.toRecorder t.toRecorder :=
  ⟨h.tok, h.fault, h.cause⟩

theorem Twins.plain_wf {p t : State} (h : Twins p t) (hwf : t.cfg.wf = true) : p.cfg.wf = true := by
  rw [h.plain, Config.wf_withMode, hwf]

/-- A command whose rule gives agreeing results leaves twins twins. -/
theorem recorderCommand_twins {p t : State} {rule : Config → Recorder → CommandResult} (hwf : t.cfg.wf = true)
    (h : Twins p t) (hr : AgreeingResults (rule { t.cfg with mode := .plain } p.toRecorder) (rule t.cfg t.toRecorder)) :
    ∃ p' t', recorderCommand p rule = .next p' ∧ recorderCommand t rule = .next t' ∧ Twins p' t' := by
  obtain ⟨r, r', x, hp, ht, hagree⟩ := hr
  rw [← h.plain] at hp
  rw [recorderCommand_of_wf (h.plain_wf hwf), recorderCommand_of_wf hwf, hp, ht]
  exact ⟨_, _, rfl, rfl, h.plain, h.statistical, hagree.tok, hagree.fault, hagree.cause,
    congrArg (· ++ [x]) h.responses⟩

/-- A command word other than SNAP's leads twins to twins (the step of 40_recorder_writes.md R61). -/
theorem acceptCommand_twins {p t : State} {w : CommandWord} (hwf : t.cfg.wf = true) (hs : t.Shaped) (h : Twins p t)
    (hw : w ≠ 0x400000000) :
    ∃ p' t', acceptCommand w p = .next p' ∧ acceptCommand w t = .next t' ∧ Twins p' t' := by
  cases hd : decodeCommand w with
  | error r =>
    rw [acceptCommand_error p hd, acceptCommand_error t hd]
    exact recorderCommand_twins hwf h (illegalRule_agreeing h.agree)
  | ok i =>
    rw [acceptCommand_ok p hd, acceptCommand_ok t hd]
    cases i with
    | wlit b => exact recorderCommand_twins hwf h (wlitRule_agreeing h.agree (literalIndex_lt_llFreq hwf hs b))
    | wld l d =>
      exact recorderCommand_twins hwf h
        (wldRule_agreeing h.agree (fun _ => lenSym_lt_llFreq hwf hs) (fun _ => distSym_lt_dFreq hwf hs))
    | rst => exact recorderCommand_twins hwf h (rstRule_agreeing h.agree)
    | snap => exact absurd (decodeCommand_snap_iff.1 hd) hw
    | drain => exact recorderCommand_twins hwf h (drainRule_agreeing h.agree)
    | hdr level => exact absurd hd (decodeCommand_not_hdr w level)

/-- A run of command words goes on after the first one's answer. -/
theorem runEvents_commands_cons {w : CommandWord} {ws : List CommandWord} {s t : State}
    (h : acceptCommand w s = .next t) : runEvents (commands (w :: ws)) s = runEvents (commands ws) t := by
  have he : acceptEvent (.present (.command w)) s = .next t := h
  simp only [commands, List.map_cons, runEvents, he]

/-- A sequence of command words without SNAP's leads twins to twins. -/
theorem runEvents_twins {ws : List CommandWord} {p t : State} (hi : t.Inv) (h : Twins p t)
    (hws : (0x400000000 : CommandWord) ∉ ws) :
    ∃ p' t', runEvents (commands ws) p = .next p' ∧ runEvents (commands ws) t = .next t' ∧ Twins p' t' := by
  induction ws generalizing p t with
  | nil => exact ⟨p, t, rfl, rfl, h⟩
  | cons w ws ih =>
    obtain ⟨hw, hws⟩ := not_or.1 (List.mem_cons.not.1 hws)
    obtain ⟨p₁, t₁, hp, ht, h₁⟩ := acceptCommand_twins hi.config hi.shaped h (Ne.symm hw)
    have hi₁ : t₁.Inv := acceptEvent_inv (e := .present (.command w)) hi ht
    obtain ⟨p', t', hp', ht', h'⟩ := ih hi₁ h₁ hws
    exact ⟨p', t', (runEvents_commands_cons hp).trans hp', (runEvents_commands_cons ht).trans ht', h'⟩

/-- SNAP divides twins that operate: the Statistical one answers, the Plain one raises BAD_CMD. -/
theorem acceptCommand_snap_twins {p t : State} (hwf : t.cfg.wf = true) (hs : t.Shaped) (h : Twins p t)
    (hf : t.fault = false) :
    (∃ pl, acceptCommand 0x400000000 t = .next (t.answer t.toRecorder (okResponse pl))) ∧
      acceptCommand 0x400000000 p = .next (faultedWith .badCmd p) := by
  have hsnap (s : State) : acceptCommand 0x400000000 s = exec .snap s :=
    acceptCommand_ok s (decodeCommand_snap_iff.2 rfl)
  rw [hsnap, hsnap]
  constructor
  · obtain ⟨t', ht⟩ := exec_snap_answers hwf hs
    obtain ⟨-, ⟨hf', -⟩ | ⟨-, hm, -⟩ | ⟨-, -, -, -, rfl⟩⟩ := exec_snap_next ht
    · simp [hf] at hf'
    · simp [h.statistical] at hm
    · exact ⟨_, ht⟩
  · exact exec_snap_of_plain (h.plain_wf hwf) (h.fault.trans hf) (by rw [h.plain])

/-- Settles O48: after hardware reset the instances are twins, the sequence keeps them so (`runEvents_twins`), and the
invariants (`reachable_inv`) give the sizes of the tables that SNAP reads. -/
theorem modesAgree : Obligations.ModesAgree := by
  intro c ws hwf hws
  have hwfs : Config.wf { c with mode := .statistical } = true := hwf
  have hinit : Twins (State.initial { c with mode := .plain }) (State.initial { c with mode := .statistical }) :=
    ⟨rfl, rfl, rfl, rfl, rfl, rfl⟩
  obtain ⟨p, t, hp, ht, h⟩ := runEvents_twins (State.inv_initial hwfs) hinit hws
  have hi := reachable_inv hwfs ht
  exact ⟨p, t, hp, ht, h, acceptCommand_snap_twins hi.config hi.shaped h⟩

end Sys2Proof.Machine

/-! PROOFS. 41_recorder_control_read.md R62 to R64: RST, SNAP and DRAIN whole, and what each does when executed again. -/

namespace Sys2Proof.Machine

/-! ### RST (R62) -/

/-- `Seeded_D`, entry by entry (10_state.md R18). -/
theorem seededD_eq_map_range (c : Config) : c.seededD = (List.range c.numDist).map fun _ => 0 := by
  rw [List.map_const', List.length_range, Config.seededD]

/-- Seeding a seeded block changes nothing. -/
theorem Recorder.seed_seed (r : Recorder) (c : Config) : (r.seed c).seed c = r.seed c := rfl

theorem exec_rst_of_good {s : State} (hwf : s.cfg.wf = true) (hf : s.fault = false) :
    exec .rst s = .next (s.answer (s.toRecorder.seed s.cfg) (okResponse {})) :=
  (command_of_good hwf hf rfl).trans rfl

/-- RST in a block that RST has seeded only answers. -/
theorem exec_rst_again {s : State} {p : Response} (hwf : s.cfg.wf = true) (hf : s.fault = false) :
    let t := s.answer (s.toRecorder.seed s.cfg) p
    exec .rst t = .next (t.answer t.toRecorder (okResponse {})) := by
  intro t
  have hseed : t.toRecorder.seed t.cfg = t.toRecorder := Recorder.seed_seed s.toRecorder s.cfg
  rw [exec_rst_of_good (s := t) hwf hf, hseed]

/-- Settles O18: an operating unit empties and seeds its block (`exec_rst_of_good`), which sets the flags of an empty store,
and a second RST only answers (`exec_rst_again`). -/
theorem rstExecutes : Obligations.RstExecutes := by
  intro s hwf hf
  rw [← seededD_eq_map_range]
  obtain ⟨hempty, hfull, -⟩ := flags_of_empty_store (s := s.answer (s.toRecorder.seed s.cfg) (okResponse {})) hwf rfl
  exact ⟨rfl, exec_rst_of_good hwf hf, hempty, hfull, exec_rst_again hwf hf⟩

/-! ### SNAP (R63) -/

/-- The tables of the configured sizes hold every entry that SNAP reads. -/
theorem snap_entries_exist {s : State} (hwf : s.cfg.wf = true) (hs : s.Shaped) :
    s.cfg.numLitlenLive ≤ s.llFreq.length ∧ s.cfg.numDist ≤ s.dFreq.length := by
  obtain ⟨hlive, -⟩ := Config.wf_numbers hwf
  obtain ⟨hll, hd⟩ := hs
  omega

theorem exec_snap_of_statistical {s : State} (hwf : s.cfg.wf = true) (hf : s.fault = false)
    (hm : s.cfg.mode = .statistical) (hll : s.cfg.numLitlenLive ≤ s.llFreq.length)
    (hd : s.cfg.numDist ≤ s.dFreq.length) :
    exec .snap s = .next (s.answer s.toRecorder (okResponse (completedPayload s .snap))) := by
  refine (command_of_good hwf hf rfl).trans ?_
  rw [hm, readFirst_eq hll, readFirst_eq hd]
  rfl

/-- Settles O19: in Statistical mode the payload is the first entries of the two tables, which hold them
(`snap_entries_exist`); in Plain mode SNAP is illegal (`exec_snap_of_plain`). -/
theorem snapExecutes : Obligations.SnapExecutes := by
  rintro s ⟨hwf, hs, hf⟩
  obtain ⟨hll, hd⟩ := snap_entries_exist hwf hs
  refine ⟨rfl, fun hm => ⟨s.llFreq.take s.cfg.numLitlenLive, s.dFreq.take s.cfg.numDist, ?_, ?_, ?_, ?_, ?_⟩,
    exec_snap_of_plain hwf hf⟩
  · exact exec_snap_of_statistical hwf hf hm hll hd
  · exact List.length_take_of_le hll
  · exact fun i hi => List.getElem?_take_of_lt hi
  · exact List.length_take_of_le hd
  · exact fun i hi => List.getElem?_take_of_lt hi

/-! ### DRAIN (R64) -/

theorem exec_drain_of_good {s : State} (hwf : s.cfg.wf = true) (hf : s.fault = false) :
    exec .drain s = .next (s.answer s.toRecorder (okResponse (completedPayload s .drain))) :=
  (command_of_good hwf hf rfl).trans rfl

/-- Settles O20: an operating unit answers its buffered tokens and keeps them (`exec_drain_of_good`), before and after
further words have been appended. -/
theorem drainExecutes : Obligations.DrainExecutes := by
  intro s hwf hf
  refine ⟨rfl, exec_drain_of_good hwf hf, ?_⟩
  rintro ws t rfl
  exact exec_drain_of_good (s := { s with tok := s.tok ++ ws }) hwf hf

end Sys2Proof.Machine

/-! PROOFS. 42_header_builder.md R66 to R71: the mod-31 checksum `FCheck` with its properties, and HDR whole. -/

namespace Sys2Proof.Machine

/-! ### The checksum function on natural numbers (R66) -/

/-- Clearing bits 4:0 rounds down to a multiple of 32. -/
theorem flgWithoutChecksum_toNat (f : Byte) : (flgWithoutChecksum f).toNat = f.toNat / 32 * 32 := by
  have hmask : (0xE0 : Byte) = BitVec.allOnes 8 <<< 5 := by decide
  have := f.isLt
  rw [flgWithoutChecksum, hmask, ← BitVec.shiftLeft_ushiftRight, BitVec.toNat_shiftLeft,
    BitVec.toNat_ushiftRight, Nat.shiftLeft_eq, Nat.shiftRight_eq_div_pow]
  omega

/-- The checksum field, bits 4:0, is the remainder of the division by 32. -/
theorem checksumField_toNat (f : Byte) : (f &&& 0x1F).toNat = f.toNat % 32 :=
  (BitVec.toNat_and f 0x1F).trans (Nat.and_two_pow_sub_one_eq_mod f.toNat 5)

/-- The checksum value is 1 to 31 and fits the five bits of its field. -/
theorem checkValue_bounds (cmf flg0 : Byte) : 1 ≤ checkValue cmf flg0 ∧ checkValue cmf flg0 ≤ 31 := by
  unfold checkValue
  omega

/-- The sum of R66 does not wrap. -/
theorem fcheck_toNat (cmf f : Byte) :
    (fcheck cmf f).toNat = (flgWithoutChecksum f).toNat + checkValue cmf (flgWithoutChecksum f) := by
  have hflg := flgWithoutChecksum_toNat f
  have hchk := checkValue_bounds cmf (flgWithoutChecksum f)
  have := f.isLt
  rw [fcheck, BitVec.toNat_add, BitVec.toNat_ofNat]
  omega

/-- R66 (a). -/
theorem fcheck_divisible (cmf f : Byte) : (cmf.toNat * 256 + (fcheck cmf f).toNat) % 31 = 0 := by
  rw [fcheck_toNat, checkValue]
  omega

/-- R66 (c): the checksum is added below the bits that are kept. -/
@[simp] theorem flgWithoutChecksum_fcheck (cmf f : Byte) : flgWithoutChecksum (fcheck cmf f) = flgWithoutChecksum f := by
  have hflg := flgWithoutChecksum_toNat f
  have hchk := checkValue_bounds cmf (flgWithoutChecksum f)
  apply BitVec.eq_of_toNat_eq
  rw [flgWithoutChecksum_toNat, fcheck_toNat]
  omega

@[simp] theorem flgWithoutChecksum_idem (f : Byte) :
    flgWithoutChecksum (flgWithoutChecksum f) = flgWithoutChecksum f := by
  rw [flgWithoutChecksum, flgWithoutChecksum, BitVec.and_assoc, BitVec.and_self]

/-- R66 (b): the input counts by its bits 7:5 only. -/
theorem fcheck_congr {f g : Byte} (cmf : Byte) (h : flgWithoutChecksum f = flgWithoutChecksum g) :
    fcheck cmf f = fcheck cmf g := by
  rw [fcheck, fcheck, h]

/-- Bits 4:0 of the result are the checksum value. -/
theorem fcheck_checksumField (cmf f : Byte) :
    (fcheck cmf f &&& 0x1F).toNat = checkValue cmf (flgWithoutChecksum f) := by
  have hflg := flgWithoutChecksum_toNat f
  have hchk := checkValue_bounds cmf (flgWithoutChecksum f)
  rw [checksumField_toNat, fcheck_toNat]
  omega

/-- R66 (d): remainder 0 gives the field 31, not 0. -/
theorem fcheck_checksumField_of_rem_zero {cmf f : Byte}
    (h : (cmf.toNat * 256 + (flgWithoutChecksum f).toNat) % 31 = 0) : fcheck cmf f &&& 0x1F = 31 := by
  apply BitVec.eq_of_toNat_eq
  rw [fcheck_checksumField, checkValue, h]
  rfl

/-- Settles O23: the formula is `fcheck_toNat`; its properties are `fcheck_divisible`, that only bits 7:5 of the input count
(`fcheck_congr`) and that the result keeps them, and `fcheck_checksumField_of_rem_zero`. -/
theorem fCheckProperties : Obligations.FCheckProperties := fun cmf f =>
  ⟨fcheck_toNat cmf f, fcheck_divisible cmf f, fcheck_congr cmf (flgWithoutChecksum_fcheck cmf f),
    fcheck_congr cmf (flgWithoutChecksum_idem f).symm, flgWithoutChecksum_fcheck cmf f, fcheck_checksumField_of_rem_zero⟩

/-! ### The header word and its bytes (R67) -/

@[simp] theorem headerByte0_buildHeader (cmf : Byte) (level : HeaderRequest) :
    headerByte0 (buildHeader cmf level) = cmf := BitVec.extractLsb'_append_eq_left

@[simp] theorem headerByte1_buildHeader (cmf : Byte) (level : HeaderRequest) :
    headerByte1 (buildHeader cmf level) = fcheck cmf (levelBits level) := BitVec.extractLsb'_append_eq_right

/-- A header word read as its two bytes, byte 0 first. -/
theorem toNat_eq_headerBytes (h : HeaderWord) : h.toNat = (headerByte0 h).toNat * 256 + (headerByte1 h).toNat := by
  have := h.isLt
  simp only [headerByte0, headerByte1, BitVec.extractLsb'_toNat, Nat.shiftRight_eq_div_pow]
  omega

/-- The level in bits 7:6, and no checksum yet. -/
theorem flgWithoutChecksum_levelBits_toNat (level : HeaderRequest) :
    (flgWithoutChecksum (levelBits level)).toNat = level.toNat * 64 := by
  have := level.isLt
  rw [flgWithoutChecksum_toNat, levelBits, BitVec.toNat_shiftLeft, BitVec.toNat_setWidth, Nat.shiftLeft_eq]
  omega

/-- Byte 1 as R67 writes it: the level, and the checksum of the level below it. -/
theorem fcheck_levelBits_toNat (cmf : Byte) (level : HeaderRequest) :
    (fcheck cmf (levelBits level)).toNat = level.toNat * 64 + (31 - (cmf.toNat * 256 + level.toNat * 64) % 31) := by
  rw [fcheck_toNat, checkValue, flgWithoutChecksum_levelBits_toNat]

/-- The header as one number of R68's table. -/
theorem buildHeader_toNat (cmf : Byte) (level : HeaderRequest) :
    (buildHeader cmf level).toNat =
      cmf.toNat * 256 + (level.toNat * 64 + (31 - (cmf.toNat * 256 + level.toNat * 64) % 31)) := by
  rw [toNat_eq_headerBytes, headerByte0_buildHeader, headerByte1_buildHeader, fcheck_levelBits_toNat]

/-- Property (a) of R66 on the two bytes of a header. -/
theorem buildHeader_divisible (cmf : Byte) (level : HeaderRequest) :
    ((headerByte0 (buildHeader cmf level)).toNat * 256 + (headerByte1 (buildHeader cmf level)).toNat) % 31 = 0 := by
  rw [headerByte0_buildHeader, headerByte1_buildHeader]
  exact fcheck_divisible cmf (levelBits level)

/-- The dictionary flag is bit 5 of byte 1; the checksum leaves it as `levelBits` has it, 0. -/
theorem buildHeader_dictFlag (cmf : Byte) (level : HeaderRequest) : (buildHeader cmf level).getLsbD 5 = false := by
  have hkept : (fcheck cmf (levelBits level) &&& 0xE0).getLsbD 5 = (levelBits level &&& 0xE0).getLsbD 5 :=
    congrArg (·.getLsbD 5) (flgWithoutChecksum_fcheck cmf (levelBits level))
  calc (buildHeader cmf level).getLsbD 5
    _ = (headerByte1 (buildHeader cmf level)).getLsbD 5 := by simp [headerByte1]
    _ = (fcheck cmf (levelBits level)).getLsbD 5 := by rw [headerByte1_buildHeader]
    _ = (levelBits level).getLsbD 5 := by simpa using hkept
    _ = false := by simp [levelBits]

/-! ### HDR (R67 to R69) -/

/-- A well-formed configuration fixes byte 0 (R71), so the level alone makes the header. -/
theorem exec_hdr_of_wf {s : State} (hwf : s.cfg.wf = true) (level : HeaderRequest) :
    exec (.hdr level) s = .next (s.answerHeader (buildHeader 0x78 level)) := by
  obtain ⟨-, -, -, -, -, -, hcmf⟩ := Config.wf_numbers hwf
  refine (whenWellFormed_of_wf hwf).trans ?_
  rw [hcmf]

/-- An answered HDR appends the header of its level. -/
theorem exec_hdr_headers {level : HeaderRequest} {s t : State} (h : exec (.hdr level) s = .next t) :
    t.headers = s.headers ++ [buildHeader 0x78 level] := by
  obtain ⟨hwf, -⟩ := exec_hdr_next h
  rw [exec_hdr_of_wf hwf] at h
  rw [← Host.Outcome.next.inj h, State.answerHeader_headers]

/-- Settles O21: the header is `buildHeader 0x78 level`, with its two bytes and its flag, and `exec_hdr_of_wf` answers it from
every state with a well-formed configuration. -/
theorem hdrExecutes : Obligations.HdrExecutes := fun level =>
  ⟨buildHeader 0x78 level, rfl, congrArg BitVec.toNat (headerByte0_buildHeader 0x78 level),
    (congrArg BitVec.toNat (headerByte1_buildHeader 0x78 level)).trans (fcheck_levelBits_toNat 0x78 level),
    toNat_eq_headerBytes _, buildHeader_dictFlag 0x78 level, fun _ hwf => exec_hdr_of_wf hwf level⟩

/-- Settles O24: whatever the state, an answered HDR appends the header of its level (`exec_hdr_headers`), which is divisible by
31 (`buildHeader_divisible`). -/
theorem headerDivisible : Obligations.HeaderDivisible := fun level _ _ h =>
  ⟨buildHeader 0x78 level, exec_hdr_headers h, buildHeader_divisible 0x78 level, fun _ _ h' => exec_hdr_headers h'⟩

/-- HDR answers the `hdr_o` of a row of R68, which R67's formula makes of its level. -/
theorem exec_hdr_row {s : State} (hwf : s.cfg.wf = true) {level : HeaderRequest} {hdr : Nat}
    (hrow : 0x78 * 256 + (level.toNat * 64 + (31 - (0x78 * 256 + level.toNat * 64) % 31)) = hdr) :
    exec (.hdr level) s = .next { s with headers := s.headers ++ [BitVec.ofNat 16 hdr] } := by
  have hformula : (buildHeader 0x78 level).toNat = hdr := (buildHeader_toNat 0x78 level).trans hrow
  rw [exec_hdr_of_wf hwf, ← hformula, BitVec.ofNat_toNat, BitVec.setWidth_eq]
  rfl

/-- Settles O22: the numbers of each row by evaluation, and the row's answer by `exec_hdr_row`. -/
theorem hdrTable : Obligations.HdrTable := by
  intro s hwf row hrow
  simp only [List.mem_cons, List.not_mem_nil, or_false] at hrow
  obtain rfl | rfl | rfl | rfl := hrow <;>
    exact ⟨rfl, rfl, rfl, rfl, rfl, rfl, rfl, rfl, exec_hdr_row hwf rfl⟩

end Sys2Proof.Machine

/-! PROOFS. 60_exceptions.md R76 to R81: the fault state and the only way out of it, the order of the causes, and OVERFLOW. -/

namespace Sys2Proof.Machine

/-! ### The fault state (R80, R81) -/

/-- Settles O31: every command word is refused (`acceptCommand_of_faulted`), which moves nothing the status port shows, and HDR
answers from every state with a well-formed configuration (`exec_hdr_of_wf`). -/
theorem faultStateRefuses : Obligations.FaultStateRefuses := fun _ hwf hf =>
  ⟨fun w => ⟨_, acceptCommand_of_faulted hwf hf w, rfl, rfl⟩, fun level => ⟨_, exec_hdr_of_wf hwf level⟩⟩

/-- The rule of a command word is what the port carries out (40_recorder_writes.md R58). -/
theorem acceptCommand_eq_recorderCommand (w : CommandWord) (s : State) :
    acceptCommand w s = recorderCommand s (ruleOfWord w) := by
  cases hd : decodeCommand w with
  | error r => simp only [acceptCommand_error s hd, illegalCommand, ruleOfWord, hd]
  | ok i =>
    rw [acceptCommand_ok s hd]
    cases i with
    | hdr level => exact absurd hd (decodeCommand_not_hdr w level)
    | wlit | wld | rst | snap | drain => simp only [ruleOfWord, hd]; rfl

/-- A command word is answered under a well-formed configuration only (00_scope.md R6). -/
theorem acceptCommand_next_wf {s t : State} {w : CommandWord} (h : acceptCommand w s = .next t) : s.cfg.wf = true := by
  rw [acceptCommand_eq_recorderCommand] at h
  exact (recorderCommand_next h).1

/-- A command word that a faulted unit answers is refused. -/
theorem acceptCommand_faulted_next {s t : State} {w : CommandWord} (hf : s.fault = true)
    (h : acceptCommand w s = .next t) : t = refusedIn s :=
  Host.Outcome.next.inj (h.symm.trans (acceptCommand_of_faulted (acceptCommand_next_wf h) hf w))

/-- A word on either port leaves a faulted unit as it is (R80, 42_header_builder.md R67). -/
theorem acceptWord_of_faulted {s t : State} {p : PortWord} (hf : s.fault = true) (h : acceptWord p s = .next t) :
    t.toRecorder = s.toRecorder := by
  cases p with
  | command w =>
    obtain rfl := acceptCommand_faulted_next hf h
    rfl
  | header level =>
    obtain ⟨-, rfl⟩ := exec_hdr_next h
    rfl

/-- A step of a faulted unit serves hardware reset, after which the unit is in its initial state, or leaves the unit as it
is. -/
theorem step_of_faulted {s t : State} (hf : s.fault = true) (h : step s = .next t) :
    ((∃ m a rest, s.inputs = .hardwareReset m a :: rest) ∧ t.toRecorder = Recorder.initial s.cfg) ∨
    ((¬ ∃ m a rest, s.inputs = .hardwareReset m a :: rest) ∧ t.toRecorder = s.toRecorder) := by
  obtain ⟨hin, rfl⟩ | ⟨e, rest, hin, h⟩ := step_next h
  · exact .inr ⟨by simp [hin], rfl⟩
  · cases e with
    | present p => exact .inr ⟨by simp [hin], acceptWord_of_faulted (s := { s with inputs := rest }) hf h⟩
    | hardwareReset m a =>
      obtain ⟨-, rfl⟩ := hardwareReset_next h
      exact .inl ⟨⟨m, a, rest, hin⟩, rfl⟩

/-- Settles O32: by the two cases of `step_of_faulted`. -/
theorem faultLeftOnlyByHardwareReset : Obligations.FaultLeftOnlyByHardwareReset := by
  intro s t h hf
  obtain ⟨hreset, hrec⟩ | ⟨hreset, hrec⟩ := step_of_faulted hf h
  · simp [hreset, hrec]
  · simp [hreset, hrec, hf]

/-! ### The fault registers after a command of an operating unit (R78) -/

section
variable {s t : State} (hf : s.fault = false)
include hf

/-- WLIT has one check, of the room (R76). -/
theorem exec_wlit_faultRegisters {b : Byte} (h : exec (.wlit b) s = .next t) :
    (s.cfg.depth < s.tokCount + 1 ∧ t.fault = true ∧ t.cause = 3) ∨
    (s.tokCount + 1 ≤ s.cfg.depth ∧ t.fault = false ∧ t.cause = s.cause) := by
  obtain ⟨-, ⟨hf', -⟩ | ⟨-, hfull, rfl⟩ | ⟨-, hroom, h⟩⟩ := exec_wlit_next h
  · simp [hf] at hf'
  · exact .inl ⟨hfull, rfl, rfl⟩
  · obtain ⟨-, -, htf, hcause⟩ := recordTokens_frame h
    exact .inr ⟨hroom, htf.trans hf, hcause⟩

/-- WLD has three checks, of the length, of the distance and of the room, in this order (R74 to R76). -/
theorem exec_wld_faultRegisters {l d : HalfWord} (h : exec (.wld l d) s = .next t) :
    (s.cfg.lenSym l = none ∧ t.fault = true ∧ t.cause = 1) ∨
    (s.cfg.lenSym l ≠ none ∧ s.cfg.distSym d = none ∧ t.fault = true ∧ t.cause = 2) ∨
    (s.cfg.lenSym l ≠ none ∧ s.cfg.distSym d ≠ none ∧
      ((s.cfg.depth < s.tokCount + 2 ∧ t.fault = true ∧ t.cause = 3) ∨
       (s.tokCount + 2 ≤ s.cfg.depth ∧ t.fault = false ∧ t.cause = s.cause))) := by
  obtain ⟨-, ⟨hf', -⟩ | ⟨-, hl, rfl⟩ | ⟨-, ls, hl, hd, rfl⟩ | ⟨-, ls, ds, hl, hd, hfull, rfl⟩ |
    ⟨-, ls, ds, hl, hd, hroom, h⟩⟩ := exec_wld_next h
  · simp [hf] at hf'
  · exact .inl ⟨hl, rfl, rfl⟩
  · exact .inr (.inl ⟨by simp [hl], hd, rfl, rfl⟩)
  · exact .inr (.inr ⟨by simp [hl], by simp [hd], .inl ⟨hfull, rfl, rfl⟩⟩)
  · obtain ⟨-, -, htf, hcause⟩ := recordTokens_frame h
    exact .inr (.inr ⟨by simp [hl], by simp [hd], .inr ⟨hroom, htf.trans hf, hcause⟩⟩)

end

/-- RST, DRAIN, and SNAP where its word is legal, leave `CAUSE`. -/
theorem exec_control_cause {i : Instr} (hi : i = .rst ∨ (i = .snap ∧ s.cfg.mode ≠ .plain) ∨ i = .drain)
    (h : exec i s = .next t) : t.cause = s.cause := by
  obtain rfl | ⟨rfl, hmode⟩ | rfl := hi
  · obtain ⟨-, ⟨-, rfl⟩ | ⟨-, rfl⟩⟩ := exec_rst_next h <;> rfl
  · obtain ⟨-, ⟨-, rfl⟩ | ⟨-, hplain, -⟩ | ⟨-, -, -, -, rfl⟩⟩ := exec_snap_next h
    · rfl
    · exact absurd hplain hmode
    · rfl
  · obtain ⟨-, ⟨-, rfl⟩ | ⟨-, rfl⟩⟩ := exec_drain_next h <;> rfl

/-- Settles O33: the fault state and an illegal word are decided by the prologue; a legal word executes its instruction
(`prologueDecidesInOrder`), whose own checks give the rest of the order. -/
theorem causePriority : Obligations.CausePriority := by
  intro s t w h
  have hwf := acceptCommand_next_wf h
  obtain ⟨-, hillegal, hlegal⟩ := prologueDecidesInOrder s w hwf
  cases hf : s.fault with
  | true =>
    obtain rfl := acceptCommand_faulted_next hf h
    exact (if_pos rfl).symm
  | false =>
    rw [if_neg Bool.false_ne_true]
    by_cases hw : IllegalWord s.cfg w
    · rw [hillegal hf hw] at h
      rw [if_pos hw, ← Host.Outcome.next.inj h]
    · rw [if_neg hw]
      obtain ⟨ho, he⟩ | ⟨ho, he⟩ | ⟨ho, he⟩ | ⟨ho, he⟩ | ⟨ho, he⟩ := hlegal hf hw <;> rw [he] at h
      · obtain ⟨hfull, -, hcause⟩ | ⟨hroom, -, hcause⟩ := exec_wlit_faultRegisters hf h
        · simp [ho, hfull, hcause]
        · simp [ho, Nat.not_lt.2 hroom, hcause]
      · obtain ⟨hl, -, hcause⟩ | ⟨hl, hd, -, hcause⟩ | ⟨hl, hd, ⟨hfull, -, hcause⟩ | ⟨hroom, -, hcause⟩⟩ :=
          exec_wld_faultRegisters hf h
        · simp [ho, hl, hcause]
        · simp [ho, hl, hd, hcause]
        · simp [ho, hl, hd, hfull, hcause]
        · simp [ho, hl, hd, Nat.not_lt.2 hroom, hcause]
      · simp [ho, exec_control_cause (.inl rfl) h]
      · have hmode : s.cfg.mode ≠ .plain := fun hm => hw (by simp [IllegalWord, ho, hm])
        simp [ho, exec_control_cause (.inr (.inl ⟨rfl, hmode⟩)) h]
      · simp [ho, exec_control_cause (.inr (.inr rfl)) h]

/-! ### OVERFLOW (R76) -/

/-- Settles O36: each write's check of the room, by `exec_wlit_faultRegisters` and `exec_wld_faultRegisters`. -/
theorem overflowExactly : Obligations.OverflowExactly := by
  intro s t hf hcount
  refine ⟨fun b h => ?_, fun l d hl hd h => ?_⟩
  · obtain ⟨hfull, htf, hcause⟩ | ⟨hroom, htf, -⟩ := exec_wlit_faultRegisters hf h
    · exact iff_of_true ⟨htf, hcause⟩ (by omega)
    · exact iff_of_false (by simp [htf]) (by omega)
  · obtain ⟨hl', -⟩ | ⟨-, hd', -⟩ | ⟨-, -, ⟨hfull, htf, hcause⟩ | ⟨hroom, htf, -⟩⟩ := exec_wld_faultRegisters hf h
    · exact absurd hl' hl
    · exact absurd hd' hd
    · exact iff_of_true ⟨htf, hcause⟩ (by omega)
    · exact iff_of_false (by simp [htf]) (by omega)

end Sys2Proof.Machine

/-! PROOFS. 70_reset_and_hazards.md R87 and R88: what hardware reset does from any state, and how it compares with RST. -/

namespace Sys2Proof.Machine

/-! ### Hardware reset (R87) -/

theorem hardwareReset_of_wf {s : State} (hwf : s.cfg.wf = true) (m : Mode) :
    hardwareReset s m = .next (s.afterHardwareReset m) := whenWellFormed_of_wf hwf

/-- A hardware reset that waits is served, whatever command it abandons. -/
theorem step_hardwareReset {s : State} {m : Mode} {a : Option CommandWord} {rest : List Event} (hwf : s.cfg.wf = true)
    (hin : s.inputs = .hardwareReset m a :: rest) :
    step s = .next (State.afterHardwareReset { s with inputs := rest } m) := by
  unfold step serveNext
  rw [hin]
  exact hardwareReset_of_wf (s := { s with inputs := rest }) hwf m

/-- Settles O40: the served reset (`step_hardwareReset`) leaves the unit in the initial state of its configuration, with the
sampled `MODE`, and gives no output. -/
theorem hardwareResetState : Obligations.HardwareResetState := by
  intro s m a rest hwf hin
  rw [← seededD_eq_map_range]
  exact ⟨_, step_hardwareReset hwf hin, rfl, rfl, rfl, rfl, rfl, rfl, rfl, rfl⟩

/-! ### Hardware reset and RST compared (R88) -/

theorem exec_rst_of_faulted {s : State} (hwf : s.cfg.wf = true) (hf : s.fault = true) :
    exec .rst s = .next (refusedIn s) := command_of_faulted (rule := rstRule) hwf hf rfl

/-- Settles O42: hardware reset has one outcome (`hardwareReset_of_wf`); RST seeds the block of an operating unit
(`exec_rst_of_good`) and is refused in the fault state (`exec_rst_of_faulted`). -/
theorem hardwareResetAndRstCompared : Obligations.HardwareResetAndRstCompared := by
  intro s m hwf
  cases hf : s.fault with
  | false =>
    exact ⟨_, _, exec_rst_of_good hwf hf, hardwareReset_of_wf hwf m, fun _ => ⟨rfl, rfl, rfl, rfl, rfl, rfl⟩,
      rfl, rfl, hf, rfl, nofun, rfl, rfl⟩
  | true =>
    exact ⟨_, _, exec_rst_of_faulted hwf hf, hardwareReset_of_wf hwf m, nofun,
      rfl, rfl, hf, rfl, fun _ => ⟨rfl, rfl⟩, rfl, rfl⟩

end Sys2Proof.Machine

/-! PROOFS. 30_encoding.md R45 to R49 and R57: each instruction has one spelling, decoding and encoding are inverse to each
other, and the lines of the text form. -/

namespace Sys2Proof

/-! ### One spelling for each instruction (R45 to R49) -/

/-- The two bytes of `B` that R47 names are bytes of the field. -/
theorem bHighField_eq (w : CommandWord) : bHighField w = (bField w).extractLsb' 8 8 :=
  (BitVec.extractLsb'_extractLsb'_of_le (by decide)).symm

theorem bLowField_eq (w : CommandWord) : bLowField w = (bField w).extractLsb' 0 8 :=
  (BitVec.extractLsb'_extractLsb'_of_le (by decide)).symm

/-- A literal byte, zero-extended to `B`: the reserved bits are 0 and the low byte is the literal. -/
theorem setWidth_literal (b : Byte) : (b.setWidth 16).extractLsb' 8 8 = 0 ∧ (b.setWidth 16).setWidth 8 = b := by
  constructor <;> apply BitVec.eq_of_toNat_eq
  · have := b.isLt
    simp [BitVec.extractLsb'_toNat, Nat.shiftRight_eq_div_pow]
    omega
  · simp

/-- The word the encoder writes for a command spells it. -/
theorem spells_encode {i : Instr} {w : CommandWord} (h : encode i = .command w) : Spells w i := by
  cases i with
  | wlit b =>
    obtain rfl := PortWord.command.inj h
    obtain ⟨hhigh, hlow⟩ := setWidth_literal b
    exact ⟨opField_commandWord _ _ _, aField_commandWord _ _ _, (bHighField_commandWord _ _ _).trans hhigh,
      ((bLowField_commandWord _ _ _).trans hlow).symm⟩
  | wld l d =>
    obtain rfl := PortWord.command.inj h
    exact ⟨opField_commandWord _ _ _, (aField_commandWord _ _ _).symm, (bField_commandWord _ _ _).symm⟩
  | rst | snap | drain =>
    obtain rfl := PortWord.command.inj h
    exact ⟨opField_commandWord _ _ _, aField_commandWord _ _ _, bField_commandWord _ _ _⟩
  | hdr level => cases h

/-- Settles O1: a command's word spells it (`spells_encode`), and the decoder answers what a word spells; a Header request is
its own word. -/
theorem decodeEncodeAgree : Obligations.DecodeEncodeAgree := by
  intro i
  cases hw : encode i with
  | command w => exact decodeCommand_ok_iff.2 (spells_encode hw)
  | header level =>
    cases i with
    | hdr level' => exact congrArg (fun p => Except.ok (decodeRequest p)) (PortWord.header.inj hw).symm
    | wlit | wld | rst | snap | drain => cases hw

/-- A word with given fields is the word put together from them. -/
theorem commandWord_eq {w : CommandWord} {op : BitVec 3} {a b : HalfWord} (ho : opField w = op) (ha : aField w = a)
    (hb : bField w = b) : commandWord op a b = w := by
  rw [← ho, ← ha, ← hb, commandWord_fields]

/-- Where `B[15:8]` is 0, `B` is its low byte, zero-extended. -/
theorem bField_of_high_eq_zero {w : CommandWord} (h : bHighField w = 0) : bField w = (bLowField w).setWidth 16 := by
  rw [bHighField_eq] at h
  rw [bLowField_eq, Machine.setWidth_low_of_high_eq_zero h]

/-- A word that spells an instruction is the word the encoder writes for it. -/
theorem Spells.encode_eq {w : CommandWord} {i : Instr} (h : Spells w i) : encode i = .command w := by
  cases i with
  | wlit b =>
    obtain ⟨ho, ha, hhigh, rfl⟩ := h
    exact congrArg _ (commandWord_eq ho ha (bField_of_high_eq_zero hhigh))
  | wld l d =>
    obtain ⟨ho, rfl, rfl⟩ := h
    exact congrArg _ (commandWord_eq ho rfl rfl)
  | rst | snap | drain =>
    obtain ⟨ho, ha, hb⟩ := h
    exact congrArg _ (commandWord_eq ho ha hb)
  | hdr level => exact h.elim

/-- Settles O2: a command word that decodes spells its instruction, which has that one word (`Spells.encode_eq`). -/
theorem encodeDecodeAgree : Obligations.EncodeDecodeAgree := by
  intro p i h
  cases p with
  | command w => exact (decodeCommand_ok_iff.1 h).encode_eq
  | header level =>
    obtain rfl := Except.ok.inj h
    rfl

/-- Settles O5: by evaluation of the decoder at the sixteen words. -/
theorem writtenWordsDecode : Obligations.WrittenWordsDecode := by
  unfold Obligations.WrittenWordsDecode
  decide

/-! ### The lines of the text form (R57) -/

/-- A line with an operand out of its range assembles to nothing. -/
theorem Line.assemble_of_not_wf {l : Line} (h : l.wf = false) : l.assemble = none := by
  simp [Line.assemble, h]

@[simp] theorem Line.assemble_wlit (b : Byte) : (Line.wlit b.toNat).assemble = some (encode (.wlit b)) := by
  have hb : b.toNat ≤ 255 := Nat.le_of_lt_succ b.isLt
  simp [Line.assemble, Line.wf, hb]

@[simp] theorem Line.assemble_wld (l d : HalfWord) :
    (Line.wld l.toNat d.toNat).assemble = some (encode (.wld l d)) := by
  have hl : l.toNat ≤ 65535 := Nat.le_of_lt_succ l.isLt
  have hd : d.toNat ≤ 65535 := Nat.le_of_lt_succ d.isLt
  simp [Line.assemble, Line.wf, hl, hd]

@[simp] theorem Line.assemble_hdr (level : HeaderRequest) :
    (Line.hdr level.toNat).assemble = some (encode (.hdr level)) := by
  have hlevel : level.toNat ≤ 3 := Nat.le_of_lt_succ level.isLt
  simp [Line.assemble, Line.wf, hlevel, encode]

@[simp] theorem Line.assemble_hdrNamed (v : Level) : (Line.hdrNamed v).assemble = some (.header v.ordinal) := rfl

@[simp] theorem Line.assemble_cmd (w : CommandWord) : (Line.cmd w.toNat).assemble = some (.command w) := by
  simp [Line.assemble, Line.wf, w.isLt]

/-- Settles O7: one lemma for each form of line with its operands in range (`Line.assemble_wlit` and the lemmas after it), and
`Line.assemble_of_not_wf` for an operand out of range. -/
theorem textLinesAssemble : Obligations.TextLinesAssemble := by
  refine ⟨Line.assemble_wlit, Line.assemble_wld, rfl, rfl, rfl, Line.assemble_hdr, fun v => ?_, Line.assemble_cmd,
    fun n hn => Line.assemble_of_not_wf ?_, fun l d hld => Line.assemble_of_not_wf ?_,
    fun n hn => Line.assemble_of_not_wf ?_⟩
  · rw [Line.assemble_hdr, Line.assemble_hdrNamed, encode]
  · exact decide_eq_false (Nat.not_le.2 hn)
  · rw [Line.wf, ← Bool.decide_and]
    exact decide_eq_false (by omega)
  · exact decide_eq_false (Nat.not_le.2 hn)

end Sys2Proof

/-! PROOFS. 00_scope.md R10, 10_state.md R26, 20_memory.md R38 to R43 and 70_reset_and_hazards.md R95: what one step serves, what it
reads, and runs of the machine over the events that wait. -/

namespace Sys2Proof.Machine

/-! ### The event a step serves (log 3) -/

/-- A step with an event waiting takes it and serves it. -/
theorem step_of_inputs {s : State} {e : Event} {rest : List Event} (h : s.inputs = e :: rest) :
    step s = acceptEvent e { s with inputs := rest } := by
  unfold step serveNext
  rw [h]

/-- A step with no event waiting changes nothing. -/
theorem step_of_no_inputs {s : State} (h : s.inputs = []) : step s = .next s := by
  unfold step serveNext
  rw [h]

theorem acceptWord_ok {p : PortWord} {i : Instr} (s : State) (h : decode p = .ok i) : acceptWord p s = exec i s := by
  simp [acceptWord, h]

/-- Settles O8: the step serves the word (`step_of_inputs`), which executes what it decodes to (`acceptWord_ok`). -/
theorem stepRunsDecodedInstruction : Obligations.StepRunsDecodedInstruction := fun _ _ _ _ hin hd =>
  (step_of_inputs hin).trans (acceptWord_ok _ hd)

/-- Settles O9: an illegal word that is served is refused in the fault state (`acceptCommand_of_faulted`) and raises BAD_CMD out
of it (`acceptCommand_of_illegal`). -/
theorem stepWithoutInstruction : Obligations.StepWithoutInstruction := by
  refine fun s => ⟨step_of_no_inputs, fun w r rest hwf hin hd => ?_⟩
  have hstep : step s = acceptCommand w { s with inputs := rest } := step_of_inputs hin
  rw [hstep]
  cases hf : s.fault with
  | true => exact acceptCommand_of_faulted (s := { s with inputs := rest }) hwf hf w
  | false =>
    exact acceptCommand_of_illegal (s := { s with inputs := rest }) hwf hf (illegalWord_iff.2 (.inl ⟨r, hd⟩))

/-- A presented row's word is served by the next step (log 13). -/
theorem step_withFetchWord {nbits w : Nat} {p : PortWord} (s : State) (h : portWordOf nbits w = some p) :
    step (s.withFetchWord nbits w) = acceptWord p s := by
  have hput : s.withFetchWord nbits w = { s with inputs := .present p :: s.inputs } := by
    simp [State.withFetchWord, presentTableWord, h]
  rw [hput]
  exact step_of_inputs (s := { s with inputs := .present p :: s.inputs }) rfl

/-- A row's bits that decode are a word of a port that decodes. -/
theorem decodeTableWord_some {nbits w : Nat} {i : Instr} (h : decodeTableWord nbits w = some i) :
    ∃ p, portWordOf nbits w = some p ∧ decode p = .ok i := by
  unfold decodeTableWord at h
  split at h
  · cases h
  · split at h
    · obtain rfl := Option.some.inj h
      exact ⟨_, ‹_›, ‹_›⟩
    · cases h

/-- Settles O10: the step serves the word of the row (`step_withFetchWord`), and a row that decodes has such a word
(`decodeTableWord_some`). -/
theorem presentedWordRunsNext : Obligations.PresentedWordRunsNext := by
  refine ⟨fun s _ _ _ => step_withFetchWord s, fun s nbits w i h => ?_⟩
  obtain ⟨p, hp, hd⟩ := decodeTableWord_some h
  rw [step_withFetchWord s hp, acceptWord_ok s hd]

/-- Settles O13: every instruction, every command word and hardware reset stand behind the configuration check. -/
theorem illFormedConfigRefused : Obligations.IllFormedConfigRefused := by
  refine fun s hwf => ⟨fun i => ?_, fun w => ?_, fun m => whenWellFormed_illFormed hwf⟩
  · cases i with
    | wlit | wld | rst | snap | drain | hdr => exact whenWellFormed_illFormed hwf
  · rw [acceptCommand_eq_recorderCommand]
    exact whenWellFormed_illFormed hwf

/-! ### What an event reads and writes (10_state.md R26) -/

/-- A command word under a well-formed configuration is the Recorder unit's step, delivered. -/
theorem acceptCommand_of_wf {s : State} (hwf : s.cfg.wf = true) (w : CommandWord) :
    acceptCommand w s = deliver s (recorderStep s.cfg s.toRecorder w) := by
  rw [acceptCommand_eq_recorderCommand, recorderCommand_of_wf hwf]
  rfl

/-- Settles O56: a command word is the unit's step, delivered (`acceptCommand_of_wf`); a Header request and hardware reset have
one outcome each under a well-formed configuration. -/
theorem stepReadsConfigStateWord : Obligations.StepReadsConfigStateWord := by
  refine ⟨fun s w hwf => ?_, fun _ _ hwf => whenWellFormed_of_wf hwf, fun _ m hwf => hardwareReset_of_wf hwf m⟩
  rw [acceptCommand_of_wf hwf]
  cases recorderStep s.cfg s.toRecorder w with
  | ok x => rfl
  | error e => rfl

/-- What an event does that is answered: a command word takes the Recorder unit's step and gives its response, a Header
request gives a header, hardware reset gives nothing. -/
theorem acceptEvent_next {s t : State} {e : Event} (h : acceptEvent e s = .next t) :
    s.cfg.wf = true ∧
      ((∃ w r p, e = .present (.command w) ∧ recorderStep s.cfg s.toRecorder w = .ok (r, p) ∧ t = s.answer r p) ∨
       (∃ level, e = .present (.header level) ∧ t = s.answerHeader (buildHeader 0x78 level)) ∨
       (∃ m a, e = .hardwareReset m a ∧ t = s.afterHardwareReset m)) := by
  match e with
  | .present (.command w) =>
    have hw : acceptCommand w s = .next t := h
    have hwf := acceptCommand_next_wf hw
    obtain ⟨r, p, hstep, rfl⟩ := deliver_next ((acceptCommand_of_wf hwf w).symm.trans hw)
    exact ⟨hwf, .inl ⟨w, r, p, rfl, hstep, rfl⟩⟩
  | .present (.header level) =>
    have hl : exec (.hdr level) s = .next t := h
    obtain ⟨hwf, -⟩ := exec_hdr_next hl
    rw [exec_hdr_of_wf hwf] at hl
    exact ⟨hwf, .inr (.inl ⟨level, rfl, (Host.Outcome.next.inj hl).symm⟩)⟩
  | .hardwareReset m a =>
    obtain ⟨hwf, rfl⟩ := hardwareReset_next h
    exact ⟨hwf, .inr (.inr ⟨m, a, rfl, rfl⟩)⟩

/-- Settles O50: an event that is no Header request looks at no header and keeps those given (`acceptEvent_next`), and HDR looks
at the level alone (`exec_hdr_of_wf`). -/
theorem headerCommutes : Obligations.HeaderCommutes := by
  intro s t e level h hne
  obtain ⟨hwf, ⟨w, r, p, rfl, hstep, rfl⟩ | ⟨level', rfl, -⟩ | ⟨m, a, rfl, rfl⟩⟩ := acceptEvent_next h
  · refine ⟨_, _, exec_hdr_of_wf (s := s.answer r p) hwf level, exec_hdr_of_wf hwf level, ?_⟩
    refine (acceptCommand_of_wf (s := s.answerHeader (buildHeader 0x78 level)) hwf w).trans ?_
    simp only [State.answerHeader_cfg, State.answerHeader_toRecorder, hstep]
    rfl
  · exact absurd rfl (hne level')
  · exact ⟨_, _, exec_hdr_of_wf (s := s.afterHardwareReset m) hwf level, exec_hdr_of_wf hwf level,
      hardwareReset_of_wf (s := s.answerHeader (buildHeader 0x78 level)) hwf m⟩

/-- Settles O52: every event appends to what the host has been given (`acceptEvent_next`). -/
theorem payloadsStayGiven : Obligations.PayloadsStayGiven := by
  intro s t h
  obtain ⟨-, rfl⟩ | ⟨e, rest, -, h⟩ := step_next h
  · exact ⟨List.prefix_rfl, List.prefix_rfl⟩
  · obtain ⟨-, ⟨w, r, p, -, -, rfl⟩ | ⟨level, -, rfl⟩ | ⟨m, a, -, rfl⟩⟩ := acceptEvent_next h
    · exact ⟨List.prefix_append _ _, List.prefix_rfl⟩
    · exact ⟨List.prefix_rfl, List.prefix_append _ _⟩
    · exact ⟨List.prefix_rfl, List.prefix_rfl⟩

/-- Settles O41: hardware reset's one effect (`hardwareReset_next`) writes the Recorder unit and `MODE` alone. -/
theorem hardwareResetFrame : Obligations.HardwareResetFrame := by
  intro s t m h
  obtain ⟨-, rfl⟩ := hardwareReset_next h
  exact ⟨rfl, rfl, rfl, rfl⟩

/-! ### A run is the fold of the steps (20_memory.md R38) -/

/-- Settles O57: by induction on the words, each step being the unit's step on the first (`acceptCommand_of_wf`). -/
theorem runIsFoldOfSteps : Obligations.RunIsFoldOfSteps := by
  intro s ws hwf hin
  induction ws generalizing s with
  | nil =>
    have hs : s = { s with toRecorder := s.toRecorder, inputs := [], responses := s.responses ++ [] } := by
      rw [List.append_nil, ← show s.inputs = [] from hin]
    exact congrArg Host.Outcome.next hs
  | cons w ws ih =>
    have hstep : step s = deliver { s with inputs := commands ws } (recorderStep s.cfg s.toRecorder w) :=
      (step_of_inputs hin).trans (acceptCommand_of_wf (s := { s with inputs := commands ws }) hwf w)
    cases hw : recorderStep s.cfg s.toRecorder w with
    | error e =>
      rw [hw] at hstep
      simp only [recorderRun, hw]
      exact core_run_of_fault hstep
    | ok x =>
      obtain ⟨r, p⟩ := x
      rw [hw] at hstep
      refine (core_run_of_step hstep).trans ((ih (State.answer { s with inputs := commands ws } r p) hwf rfl).trans ?_)
      simp only [recorderRun, hw, State.answer_cfg, State.answer_toRecorder, State.answer_responses]
      cases recorderRun s.cfg r ws with
      | error e => rfl
      | ok y => simp [State.answer]

/-! ### Every event is served (70_reset_and_hazards.md R95) -/

/-- Is the event a Header request, which the Header unit answers? -/
def Event.isRequest : Event → Bool
  | .present (.header _) => true
  | .present (.command _) | .hardwareReset _ _ => false

/-- From a state that meets the invariants every event is answered. -/
theorem acceptEvent_answers {s : State} (hi : s.Inv) (e : Event) : ∃ t, acceptEvent e s = .next t := by
  match e with
  | .present (.command w) => exact acceptCommand_answers hi.config hi.shaped w
  | .present (.header level) => exact ⟨_, exec_hdr_of_wf hi.config level⟩
  | .hardwareReset m _ => exact ⟨_, hardwareReset_of_wf hi.config m⟩

/-- An event that is answered adds its one answer, and takes nothing from those that wait. -/
theorem acceptEvent_outputs {s t : State} {e : Event} (h : acceptEvent e s = .next t) :
    t.inputs = s.inputs ∧ t.responses.length = s.responses.length + [e].countP Event.isCommand ∧
      t.headers.length = s.headers.length + [e].countP Event.isRequest := by
  obtain ⟨-, ⟨w, r, p, rfl, -, rfl⟩ | ⟨level, rfl, rfl⟩ | ⟨m, a, rfl, rfl⟩⟩ := acceptEvent_next h <;>
    simp [Event.isCommand, Event.isRequest]

/-- As many steps as events wait serve them all, each answered once. -/
theorem run_serves_all {es : List Event} {s : State} (hi : s.Inv) (hin : s.inputs = es) :
    ∃ t : State, Host.Core.run Sys2Proof.core es.length s = .next t ∧ t.inputs = [] ∧
      t.responses.length = s.responses.length + es.countP Event.isCommand ∧
      t.headers.length = s.headers.length + es.countP Event.isRequest := by
  induction es generalizing s with
  | nil => exact ⟨s, rfl, hin, rfl, rfl⟩
  | cons e es ih =>
    have hi' : State.Inv { s with inputs := es } := hi.of_toRecorder_eq rfl rfl
    obtain ⟨u, hu⟩ := acceptEvent_answers hi' e
    obtain ⟨huin, hur, huh⟩ := acceptEvent_outputs hu
    obtain ⟨t, ht, htin, htr, hth⟩ := ih (acceptEvent_inv hi' hu) huin
    refine ⟨t, (core_run_of_step ((step_of_inputs hin).trans hu)).trans ht, htin, ?_, ?_⟩
    · rw [htr, hur, Nat.add_assoc, ← List.countP_append, List.singleton_append]
    · rw [hth, huh, Nat.add_assoc, ← List.countP_append, List.singleton_append]

/-- Settles O51: `run_serves_all` on the events that wait. -/
theorem everyEventIsServed : Obligations.EveryEventIsServed := fun _ hi => run_serves_all hi rfl

end Sys2Proof.Machine

/-! PROOFS. 20_memory.md R28 and R34: what each instruction leaves unchanged, and that a read repeated is answered alike. -/

namespace Sys2Proof.Machine

/-! ### What every command leaves unchanged -/

/-- A command that answers adds one response and touches nothing beside the Recorder unit. -/
theorem recorderCommand_answer {s t : State} {rule : Config → Recorder → CommandResult}
    (h : recorderCommand s rule = .next t) : ∃ p, t = s.answer t.toRecorder p := by
  obtain ⟨-, r, p, -, rfl⟩ := recorderCommand_next h
  exact ⟨p, rfl⟩

/-- An instruction of the command port that answers adds one response and touches nothing beside the Recorder unit. -/
theorem exec_answer {s t : State} {i : Instr} (hi : ∀ level, i ≠ .hdr level) (h : exec i s = .next t) :
    ∃ p, t = s.answer t.toRecorder p := by
  cases i with
  | wlit | wld | rst | snap | drain => exact recorderCommand_answer h
  | hdr level => exact absurd rfl (hi level)

/-- One response more leaves those given. -/
theorem responses_append_one (ps : List Response) (p : Response) :
    (∀ j < ps.length, (ps ++ [p])[j]? = ps[j]?) ∧ (ps ++ [p]).length = ps.length + 1 :=
  ⟨fun _ hj => List.getElem?_append_left hj, List.length_append⟩

/-- `CAUSE` changes only where `FAULT` does, and a set `FAULT` stays set (10_state.md R19). -/
theorem exec_faultRegisters {s t : State} {i : Instr} (hi : ∀ level, i ≠ .hdr level) (h : exec i s = .next t) :
    (t.fault = s.fault → t.cause = s.cause) ∧ (s.fault = true → t.fault = true) := by
  obtain ⟨hf, -, hcause, -⟩ | ⟨hf, x, rfl⟩ | ⟨hf, rfl⟩ := exec_outcome hi h
  · exact ⟨fun _ => hcause, by simp [hf]⟩
  · simp [hf]
  · exact ⟨fun _ => rfl, fun _ => hf⟩

/-- What stands beside the Recorder unit, the fault registers and the responses given, after any command. -/
theorem exec_frame {s t : State} {i : Instr} (hi : ∀ level, i ≠ .hdr level) (h : exec i s = .next t) :
    t.cfg = s.cfg ∧ t.inputs = s.inputs ∧ t.headers = s.headers ∧
      (t.fault = s.fault → t.cause = s.cause) ∧ (s.fault = true → t.fault = true) ∧
      (∀ j < s.responses.length, t.responses[j]? = s.responses[j]?) ∧
      t.responses.length = s.responses.length + 1 := by
  obtain ⟨hcause, hfault⟩ := exec_faultRegisters hi h
  obtain ⟨p, ht⟩ := exec_answer hi h
  have hresp : t.responses = s.responses ++ [p] := congrArg (·.responses) ht
  rw [hresp]
  exact ⟨congrArg (·.cfg) ht, congrArg (·.inputs) ht, congrArg (·.headers) ht, hcause, hfault,
    responses_append_one s.responses p⟩

/-! ### The writes (R59, R60) -/

/-- Recorded tokens count at their own entries and in Statistical mode only. -/
theorem recordTokens_tables {s t : State} {ws : List TokenWord} {ll d : Option Nat}
    (h : deliver s (recordTokens s.cfg s.toRecorder ws ll d) = .next t) :
    (∀ j, ll ≠ some j → t.llFreq[j]? = s.llFreq[j]?) ∧ (∀ j, d ≠ some j → t.dFreq[j]? = s.dFreq[j]?) ∧
      (s.cfg.mode = .plain → t.llFreq = s.llFreq ∧ t.dFreq = s.dFreq) := by
  obtain ⟨-, rfl⟩ | ⟨hm, llFreq, dFreq, h1, h2, rfl⟩ := recordTokens_next h
  · exact ⟨fun _ _ => rfl, fun _ _ => rfl, fun _ => ⟨rfl, rfl⟩⟩
  · exact ⟨fun _ => countIn_other h1, fun _ => countIn_other h2, fun hp => absurd (hm.symm.trans hp) (by simp)⟩

/-- An append leaves every index but the new ones. -/
theorem getElem?_append_of_outside {α : Type} (xs ys : List α) {j : Nat} (h : j < xs.length ∨ xs.length + ys.length ≤ j) :
    (xs ++ ys)[j]? = xs[j]? := by
  obtain h | h := h
  · exact List.getElem?_append_left h
  · rw [List.getElem?_eq_none (by simpa using h), List.getElem?_eq_none (by omega)]

/-- A WLIT leaves every entry of the stores but the next one of `TOK` and its literal's of `LL_FREQ`: a stopped one all of
them, a completed one those it does not record at. -/
theorem exec_wlit_stores {s t : State} {b : Byte} (h : exec (.wlit b) s = .next t) :
    t.dFreq = s.dFreq ∧ (∀ j, j ≠ literalIndex b → t.llFreq[j]? = s.llFreq[j]?) ∧
      (s.cfg.mode = .plain → t.llFreq = s.llFreq) ∧ ∀ j, j ≠ s.tokCount → t.tok[j]? = s.tok[j]? := by
  obtain ⟨-, htf, -, -⟩ | hstop := exec_outcome (i := .wlit b) nofun h
  · obtain ⟨-, hrec⟩ := exec_wlit_completed h htf
    obtain ⟨-, htok, -, -⟩ := recordTokens_frame hrec
    obtain ⟨hll, hd, hplain⟩ := recordTokens_tables hrec
    rw [htok]
    exact ⟨List.ext_getElem? fun j => hd j nofun, fun j hj => hll j (by simpa using hj.symm), fun hm => (hplain hm).1,
      fun j hj => getElem?_append_of_outside _ _ (Nat.lt_or_gt_of_ne hj)⟩
  · obtain ⟨-, -, htok, hll, hd⟩ := stopped_frame hstop
    rw [htok, hll, hd]
    exact ⟨rfl, fun _ _ => rfl, fun _ => rfl, fun _ _ => rfl⟩

/-- A WLD leaves every entry of the stores but the next two of `TOK` and its two codes' of the tables. -/
theorem exec_wld_stores {s t : State} {l d : HalfWord} (h : exec (.wld l d) s = .next t) :
    (∀ j, s.cfg.lenSym l ≠ some j → t.llFreq[j]? = s.llFreq[j]?) ∧
      (∀ j, s.cfg.distSym d ≠ some j → t.dFreq[j]? = s.dFreq[j]?) ∧
      (s.cfg.mode = .plain → t.llFreq = s.llFreq ∧ t.dFreq = s.dFreq) ∧
      ∀ j, j ≠ s.tokCount → j ≠ s.tokCount + 1 → t.tok[j]? = s.tok[j]? := by
  obtain ⟨-, htf, -, -⟩ | hstop := exec_outcome (i := .wld l d) nofun h
  · obtain ⟨-, ls, ds, hl, hd, hrec⟩ := exec_wld_completed h htf
    obtain ⟨-, htok, -, -⟩ := recordTokens_frame hrec
    obtain ⟨hll, hdd, hplain⟩ := recordTokens_tables hrec
    rw [hl, hd, htok]
    refine ⟨hll, hdd, hplain, fun j hj hj' => getElem?_append_of_outside _ _ ?_⟩
    simp only [Recorder.tokCount, List.length_cons, List.length_nil] at hj hj' ⊢
    omega
  · obtain ⟨-, -, htok, hll, hd⟩ := stopped_frame hstop
    rw [htok, hll, hd]
    exact ⟨fun _ _ => rfl, fun _ _ => rfl, fun _ => ⟨rfl, rfl⟩, fun _ _ _ => rfl⟩

/-- Settles O25: the stores by `exec_wlit_stores`, the rest by `exec_frame`. -/
theorem wlitFrame : Obligations.WlitFrame := by
  intro s t b h
  obtain ⟨hcfg, hin, hhdr, hrest⟩ := exec_frame (i := .wlit b) nofun h
  obtain ⟨hd, hll, hplain, htok⟩ := exec_wlit_stores h
  exact ⟨hcfg, hin, hhdr, hd, hll, hplain, htok, hrest⟩

/-- Settles O26: the stores by `exec_wld_stores`, the rest by `exec_frame`. -/
theorem wldFrame : Obligations.WldFrame := by
  intro s t l d h
  obtain ⟨hcfg, hin, hhdr, hrest⟩ := exec_frame (i := .wld l d) nofun h
  obtain ⟨hll, hd, hplain, htok⟩ := exec_wld_stores h
  exact ⟨hcfg, hin, hhdr, hll, hd, hplain, htok, hrest⟩

/-! ### RST, the reads and HDR (R34, R62 to R64, R67) -/

/-- Settles O27: RST is refused or seeds the block, and writes neither `FAULT` nor `CAUSE`. -/
theorem rstFrame : Obligations.RstFrame := by
  intro s t h
  obtain ⟨-, ⟨-, rfl⟩ | ⟨-, rfl⟩⟩ := exec_rst_next h <;>
    exact ⟨rfl, rfl, rfl, rfl, rfl, responses_append_one s.responses _⟩

/-- A read changes no store; it moves the fault registers only as SNAP in Plain mode. -/
theorem exec_read_stores {s t : State} {i : Instr} (hi : i = .snap ∨ i = .drain) (h : exec i s = .next t) :
    t.tok = s.tok ∧ t.llFreq = s.llFreq ∧ t.dFreq = s.dFreq ∧
      (i = .drain ∨ s.cfg.mode = .statistical → t.fault = s.fault ∧ t.cause = s.cause) := by
  obtain rfl | rfl := hi
  · obtain ⟨-, ⟨-, rfl⟩ | ⟨-, hm, rfl⟩ | ⟨-, -, -, -, rfl⟩⟩ := exec_snap_next h
    · exact ⟨rfl, rfl, rfl, fun _ => ⟨rfl, rfl⟩⟩
    · exact ⟨rfl, rfl, rfl, by simp [hm]⟩
    · exact ⟨rfl, rfl, rfl, fun _ => ⟨rfl, rfl⟩⟩
  · obtain ⟨-, ⟨-, rfl⟩ | ⟨-, rfl⟩⟩ := exec_drain_next h <;> exact ⟨rfl, rfl, rfl, fun _ => ⟨rfl, rfl⟩⟩

/-- Settles O28: the stores by `exec_read_stores`, the rest by `exec_frame`. -/
theorem readFrame : Obligations.ReadFrame := by
  intro s t i hi h
  have hne : ∀ level, i ≠ .hdr level := by obtain rfl | rfl := hi <;> exact nofun
  obtain ⟨hcfg, hin, hhdr, hrest⟩ := exec_frame hne h
  obtain ⟨htok, hll, hd, hregs⟩ := exec_read_stores hi h
  exact ⟨hcfg, hin, hhdr, htok, hll, hd, hregs, hrest⟩

/-- Settles O29: HDR's one effect is the header it adds (`exec_hdr_next`). -/
theorem hdrFrame : Obligations.HdrFrame := by
  intro s t level h
  obtain ⟨-, rfl⟩ := exec_hdr_next h
  exact ⟨⟨rfl, rfl⟩, rfl, rfl, fun j hj => List.getElem?_append_left hj, List.length_append⟩

/-- A read after which the unit operates answers from the stores, and answers the same again. -/
theorem exec_read_again {s t : State} {i : Instr} (hi : i = .snap ∨ i = .drain) (h : exec i s = .next t)
    (htf : t.fault = false) :
    ∃ p, t = s.answer s.toRecorder p ∧ exec i t = .next (t.answer t.toRecorder p) := by
  obtain rfl | rfl := hi
  · obtain ⟨hll, hd, rfl⟩ := exec_snap_completed h htf
    obtain ⟨hwf, ⟨hf, -⟩ | ⟨-, -, ht⟩ | ⟨-, hm, -⟩⟩ := exec_snap_next h
    · exact absurd (htf.symm.trans hf) (by simp)
    · exact absurd (htf.symm.trans (congrArg (·.fault) ht)) (by simp)
    · exact ⟨_, rfl, exec_snap_of_statistical (s := s.answer _ _) hwf htf hm hll hd⟩
  · obtain rfl := exec_drain_completed h htf
    obtain ⟨hwf, -⟩ := exec_drain_next h
    exact ⟨_, rfl, exec_drain_of_good (s := s.answer _ _) hwf htf⟩

/-- Settles O30: a completed read answers the same again (`exec_read_again`), and HDR answers from the level alone
(`exec_hdr_of_wf`). -/
theorem readsRepeat : Obligations.ReadsRepeat := by
  refine ⟨fun s t i => exec_read_again, fun s t level h => ?_⟩
  obtain ⟨hwf, -⟩ := exec_hdr_next h
  rw [exec_hdr_of_wf hwf] at h
  obtain rfl := Host.Outcome.next.inj h
  exact ⟨_, rfl, exec_hdr_of_wf (s := s.answerHeader _) hwf level⟩

end Sys2Proof.Machine

/-! PROOFS. 00_scope.md R6 and R7: the well-formedness check and the seven clauses of the rule, canonical rows for every lookup,
and the reference configuration; then the causes BAD_LENGTH and BAD_DISTANCE (60_exceptions.md R74, R75) with their operands in
REF. -/

namespace Sys2Proof

/-! ### The well-formedness check (R6) -/

/-- Clause (c) for canonical rows, pointwise in the lookup. -/
theorem Config.lenCodesOk_iff {c : Config} (h : rowsCanonical c.lenCodes = true) :
    c.lenCodesOk = true ↔ ∀ l i, c.lenSym l = some i → 256 ≤ i ∧ i < c.numLitlenLive ∧ i ≠ c.eobIndex := by
  simp only [Config.lenCodesOk, h, Bool.true_and, List.all_eq_true, Bool.and_eq_true, decide_eq_true_eq, and_assoc]
  exact findCode_forall h fun i => 256 ≤ i ∧ i < c.numLitlenLive ∧ i ≠ c.eobIndex

/-- Clause (d) for canonical rows, pointwise in the lookup. -/
theorem Config.distCodesOk_iff {c : Config} (h : rowsCanonical c.distCodes = true) :
    c.distCodesOk = true ↔ ∀ d i, c.distSym d = some i → i < c.numDist := by
  simp only [Config.distCodesOk, h, Bool.true_and, List.all_eq_true, decide_eq_true_eq]
  exact findCode_forall h (· < c.numDist)

/-- Clause (e), with the minimum match length the rule speaks of. -/
theorem Config.rangesOk_iff (c : Config) :
    c.rangesOk = true ↔ c.lenSym 258 ≠ none ∧ c.distSym 1 ≠ none ∧ c.distSym 0 = none ∧
      ∃ m : Nat, 1 ≤ m ∧ ∀ l : HalfWord, l.toNat < m → c.lenSym l = none := by
  rw [minLen_exists_iff]
  simp only [Config.rangesOk, Bool.and_eq_true, Option.isSome_iff_ne_none, Option.isNone_iff_eq_none, and_assoc]

/-- Settles O53: clauses (c), (d) and (e) by the three lemmas above; the others are comparisons of numbers. -/
theorem wellFormedMeansTheRule : Obligations.WellFormedMeansTheRule := by
  intro c hlen hdist
  rw [← Config.lenCodesOk_iff hlen, ← Config.distCodesOk_iff hdist, ← c.rangesOk_iff]
  simp only [Config.wf, Config.sizesOk, Config.eobOk, Config.depthOk, Config.cmfOk, Bool.and_eq_true, decide_eq_true_eq,
    and_assoc]

/-! ### Canonical rows for every lookup (log 9) -/

/-- Non-empty rows, each below all that follow it, are in canonical form. -/
theorem rowsCanonical_of_pairwise {rows : List CodeRow} (hne : ∀ r ∈ rows, r.lo ≤ r.hi)
    (hlt : rows.Pairwise fun r q => r.hi < q.lo) : rowsCanonical rows = true := by
  induction rows with
  | nil => rfl
  | cons r rs ih =>
    obtain ⟨hr, hrs⟩ := List.forall_mem_cons.1 hne
    obtain ⟨habove, hlt⟩ := List.pairwise_cons.1 hlt
    cases rs with
    | nil => exact decide_eq_true hr
    | cons q qs => simp [rowsCanonical, hr, habove q (by simp), ih hrs hlt]

/-- The row of a single value that has a code. -/
def singleRow (f : HalfWord → Option Nat) (k : Fin (2 ^ 16)) : Option CodeRow :=
  (f (.ofFin k)).map fun i => ⟨.ofFin k, .ofFin k, i⟩

theorem singleRow_eq_some {f : HalfWord → Option Nat} {k : Fin (2 ^ 16)} {r : CodeRow} :
    singleRow f k = some r ↔ r.lo = .ofFin k ∧ r.hi = .ofFin k ∧ f (.ofFin k) = some r.sym := by
  obtain ⟨lo, hi, sym⟩ := r
  simp only [singleRow, Option.map_eq_some_iff, CodeRow.mk.injEq]
  constructor
  · rintro ⟨i, hi, rfl, rfl, rfl⟩
    exact ⟨rfl, rfl, hi⟩
  · rintro ⟨rfl, rfl, hsym⟩
    exact ⟨sym, hsym, rfl, rfl, rfl⟩

/-- One row for each value that has a code, in the order of the values. -/
def rowsOf (f : HalfWord → Option Nat) : List CodeRow := (List.finRange (2 ^ 16)).filterMap (singleRow f)

theorem mem_rowsOf {f : HalfWord → Option Nat} {r : CodeRow} :
    r ∈ rowsOf f ↔ r.hi = r.lo ∧ f r.lo = some r.sym := by
  simp only [rowsOf, List.mem_filterMap, List.mem_finRange, true_and, singleRow_eq_some]
  constructor
  · rintro ⟨k, hlo, hhi, hf⟩
    rw [hlo, hhi]
    exact ⟨rfl, hf⟩
  · rintro ⟨hhi, hf⟩
    exact ⟨r.lo.toFin, rfl, hhi, hf⟩

theorem rowsOf_canonical (f : HalfWord → Option Nat) : rowsCanonical (rowsOf f) = true := by
  refine rowsCanonical_of_pairwise (fun r hr => ?_) ((List.sortedLT_finRange _).pairwise.filterMap _ ?_)
  · rw [(mem_rowsOf.1 hr).1]
    exact BitVec.le_refl _
  · intro k k' hlt r hr q hq
    obtain ⟨-, hhi, -⟩ := singleRow_eq_some.1 hr
    obtain ⟨hlo, -, -⟩ := singleRow_eq_some.1 hq
    rw [hhi, hlo]
    exact hlt

/-- The rows of a function look its values up. -/
theorem findCode_rowsOf (f : HalfWord → Option Nat) (v : HalfWord) : findCode (rowsOf f) v = f v := by
  cases hv : f v with
  | some i =>
    have hrow : (⟨v, v, i⟩ : CodeRow) ∈ rowsOf f := mem_rowsOf.2 ⟨rfl, hv⟩
    exact findCode_lo (r := ⟨v, v, i⟩) (rowsOf_canonical f) hrow
  | none =>
    refine findCode_none.2 fun r hr hrange => ?_
    obtain ⟨hhi, hf⟩ := mem_rowsOf.1 hr
    have hlo : r.lo = v := BitVec.eq_of_toNat_eq (by rw [hhi] at hrange; omega)
    rw [hlo, hv] at hf
    cases hf

/-- Settles O54: the rows are `rowsOf f`, one for each value that has a code. -/
theorem everyLookupHasRows : Obligations.EveryLookupHasRows := fun f =>
  ⟨rowsOf f, rowsOf_canonical f, findCode_rowsOf f⟩

/-! ### The reference configuration (R7) -/

/-- `DEPTH` enters well-formedness by its own clause (f) only. -/
theorem Config.wf_withDepth {c : Config} {depth : Nat} (h : c.wf = true) (htwo : 2 ≤ depth)
    (hmax : depth ≤ 2 ^ c.cntW - 1) : Config.wf { c with depth := depth } = true := by
  have hdepth : Config.depthOk { c with depth := depth } = true := by simp [Config.depthOk, htwo, hmax]
  simp only [Config.wf, Bool.and_eq_true] at h ⊢
  obtain ⟨⟨h, -⟩, hcmf⟩ := h
  exact ⟨⟨h, hdepth⟩, hcmf⟩

/-- Settles O55: REF is well formed with one MODE and one DEPTH, by evaluation; the check does not depend on the former
(`Config.wf_withMode`) and on the latter by clause (f) only (`Config.wf_withDepth`). -/
theorem refWellFormed : Obligations.RefWellFormed := by
  intro m depth htwo hmax
  have hwf : (Config.ref .plain 2).wf = true := by decide
  exact (Config.wf_withMode _ m).trans (Config.wf_withDepth hwf htwo hmax)

/-- Non-empty rows that follow one another without a gap, from `lo` to the value before `next`. -/
def rowsCover : List CodeRow → Nat → Nat → Bool
  | [], lo, next => decide (lo = next)
  | r :: rs, lo, next => decide (r.lo.toNat = lo) && decide (r.lo ≤ r.hi) && rowsCover rs (r.hi.toNat + 1) next

theorem rowsCover_le {rows : List CodeRow} {lo next : Nat} (h : rowsCover rows lo next = true) : lo ≤ next := by
  induction rows generalizing lo with
  | nil => exact (of_decide_eq_true h).le
  | cons r rs ih =>
    simp only [rowsCover, Bool.and_eq_true, decide_eq_true_eq, BitVec.le_def] at h
    obtain ⟨⟨hlo, hle⟩, hrs⟩ := h
    have := ih hrs
    omega

/-- Rows without a gap have codes for exactly the values they cover. -/
theorem findCode_none_of_rowsCover {rows : List CodeRow} {lo next : Nat} (h : rowsCover rows lo next = true)
    (v : HalfWord) : findCode rows v = none ↔ v.toNat < lo ∨ next ≤ v.toNat := by
  induction rows generalizing lo with
  | nil =>
    obtain rfl : lo = next := of_decide_eq_true h
    exact iff_of_true rfl (Nat.lt_or_ge _ _)
  | cons r rs ih =>
    simp only [rowsCover, Bool.and_eq_true, decide_eq_true_eq, BitVec.le_def] at h
    obtain ⟨⟨hlo, hle⟩, hrs⟩ := h
    have hnext := rowsCover_le hrs
    simp only [findCode, BitVec.le_def]
    split
    · exact iff_of_false (by simp) (by omega)
    · rw [ih hrs]
      omega

/-- REF has codes for the lengths 3 to 258. -/
theorem Config.ref_lenSym_eq_none (m : Mode) (depth : Nat) (l : HalfWord) :
    (Config.ref m depth).lenSym l = none ↔ l.toNat < 3 ∨ 259 ≤ l.toNat :=
  findCode_none_of_rowsCover (rows := refLenCodesLow ++ refLenCodesHigh) (by decide) l

/-- REF has codes for the distances 1 to 32768. -/
theorem Config.ref_distSym_eq_none (m : Mode) (depth : Nat) (d : HalfWord) :
    (Config.ref m depth).distSym d = none ↔ d.toNat < 1 ∨ 32769 ≤ d.toNat :=
  findCode_none_of_rowsCover (rows := refDistCodesLow ++ refDistCodesHigh) (by decide) d

end Sys2Proof

namespace Sys2Proof.Machine

/-! ### BAD_LENGTH and BAD_DISTANCE (60_exceptions.md R74, R75) -/

/-- Settles O34: of WLD's checks (`exec_wld_faultRegisters`) the first raises cause 1, and only it; REF's lengths by
`Config.ref_lenSym_eq_none`. -/
theorem badLengthExactly : Obligations.BadLengthExactly := by
  refine ⟨fun s t l d hf h => ?_, fun m depth l => ?_⟩
  · obtain ⟨hl, htf, hcause⟩ | ⟨hl, -, -, hcause⟩ | ⟨hl, -, ⟨-, -, hcause⟩ | ⟨-, htf, -⟩⟩ := exec_wld_faultRegisters hf h
    · exact iff_of_true ⟨htf, hcause⟩ hl
    · exact iff_of_false (by simp [hcause]) hl
    · exact iff_of_false (by simp [hcause]) hl
    · exact iff_of_false (by simp [htf]) hl
  · rw [Config.ref_lenSym_eq_none]
    omega

/-- Settles O35: the second of WLD's checks raises cause 2, and only it; REF's distances by `Config.ref_distSym_eq_none`. -/
theorem badDistanceExactly : Obligations.BadDistanceExactly := by
  refine ⟨fun s t l d hf h => ?_, fun m depth d => ?_⟩
  · obtain ⟨hl, -, hcause⟩ | ⟨hl, hd, htf, hcause⟩ | ⟨-, hd, ⟨-, -, hcause⟩ | ⟨-, htf, -⟩⟩ :=
      exec_wld_faultRegisters hf h
    · exact iff_of_false (by simp [hcause]) (by simp [hl])
    · exact iff_of_true ⟨htf, hcause⟩ ⟨hl, hd⟩
    · exact iff_of_false (by simp [hcause]) (by simp [hd])
    · exact iff_of_false (by simp [htf]) (by simp [hd])
  · rw [Config.ref_distSym_eq_none]
    omega

end Sys2Proof.Machine

/-! PROOFS. 10_state.md R23 and what rests on it: the invariants at reset and after every step, counters that are never full,
the tokens of a block read back (41_recorder_control_read.md R65), the two writes whatever the counters hold, and the step of
40_recorder_writes.md R61. -/

namespace Sys2Proof.Machine

/-! ### The invariants (R23) -/

/-- Settles O44: `State.inv_initial`, and the configuration of `State.reset` is REF with a DEPTH in its range. -/
theorem invAtReset : Obligations.InvAtReset :=
  ⟨fun _ => State.inv_initial, State.inv_initial (refWellFormed .statistical 8 (by decide) (by decide))⟩

/-- Settles O45: a step changes nothing or serves one event (`step_next`), and an event that is answered keeps the invariants
(`acceptEvent_inv`), which do not look at the events that wait. -/
theorem stepKeepsInv : Obligations.StepKeepsInv := by
  intro s t hi h
  obtain ⟨-, rfl⟩ | ⟨e, rest, -, h⟩ := step_next h
  · exact hi
  · have hi' : State.Inv { s with inputs := rest } := hi.of_toRecorder_eq rfl rfl
    exact acceptEvent_inv hi' h

/-- Settles O46: no counter exceeds the number of buffered words, and one more word fits (`State.Inv.countersFit`). -/
theorem invGivesCountersFit : Obligations.InvGivesCountersFit := fun _ hi hfree => hi.countersFit hfree

/-- Settles O58: `acceptCommand_twins`; the Plain unit's tables are not looked at. -/
theorem stepKeepsTwins : Obligations.StepKeepsTwins := fun _ _ _ hwf _ hs h hw => acceptCommand_twins hwf hs h hw

/-! ### The writes whatever the counters hold (92_eei_decisions.md D5) -/

/-- The entry `i` counts up by one if the sum fits `w` bits, and stays inside `w` bits in any case. -/
def CountsAt (w i : Nat) (table table' : List Nat) : Prop :=
  ∃ v v', table[i]? = some v ∧ table'[i]? = some v' ∧ v' < 2 ^ w ∧ (v + 1 < 2 ^ w → v' = v + 1)

/-- A counter update of an entry that exists. -/
theorem countIn_countsAt {w i : Nat} {sp : Space} {table table' : List Nat} (hi : i < table.length)
    (h : countIn w sp table (some i) = .ok table') : CountsAt w i table table' := by
  have hv := List.getElem?_eq_getElem hi
  obtain rfl := Except.ok.inj ((countIn_some hv).symm.trans h)
  exact ⟨_, _, hv, by simp [hi], countUp_lt _ _, countUp_eq⟩

/-- Recording tokens whose counters exist completes the command, in both modes and whatever the counters hold. -/
theorem recordTokens_completes {s : State} {ws : List TokenWord} {ll d : Option Nat} (hf : s.fault = false)
    (hll : ∀ k, ll = some k → k < s.llFreq.length) (hd : ∀ k, d = some k → k < s.dFreq.length) :
    ∃ t, deliver s (recordTokens s.cfg s.toRecorder ws ll d) = .next t ∧ t.tok = s.tok ++ ws ∧ t.fault = false ∧
      t.responses = s.responses ++ [⟨true, 0, {}⟩] ∧
      (s.cfg.mode = .statistical → (∀ k, ll = some k → CountsAt s.cfg.cntW k s.llFreq t.llFreq) ∧
        ∀ k, d = some k → CountsAt s.cfg.cntW k s.dFreq t.dFreq) := by
  obtain ⟨⟨r, p⟩, ho⟩ := recordTokens_answers (c := s.cfg) (ws := ws) hll hd
  have h : deliver s (recordTokens s.cfg s.toRecorder ws ll d) = .next (s.answer r p) := by rw [ho]; rfl
  obtain ⟨-, htok, hfault, -⟩ := recordTokens_frame h
  refine ⟨_, h, htok, hfault.trans hf, recordTokens_responses h, fun hm => ?_⟩
  obtain ⟨hp, -⟩ | ⟨-, llFreq, dFreq, h1, h2, ht⟩ := recordTokens_next h
  · exact absurd (hm.symm.trans hp) (by simp)
  · rw [ht]
    exact ⟨fun k hk => countIn_countsAt (hll k hk) (hk ▸ h1), fun k hk => countIn_countsAt (hd k hk) (hk ▸ h2)⟩

/-- Settles O17: a write with room records its words (`exec_wlit_of_room`, `exec_wld_of_room`), and its counters exist in tables
of the configured sizes (`recordTokens_completes`). -/
theorem countersKeepTheirWidth : Obligations.CountersKeepTheirWidth := by
  constructor
  · rintro s b ⟨hwf, hs, hf⟩ hroom
    obtain ⟨t, h, htok, htf, hresp, hcounts⟩ := recordTokens_completes (ws := [litWord b]) (ll := some (literalIndex b))
      (d := none) hf (by simpa using literalIndex_lt_llFreq hwf hs b) nofun
    exact ⟨t, (exec_wlit_of_room hwf hf hroom).trans h, htok, htf, hresp, fun hm => (hcounts hm).1 _ rfl⟩
  · rintro s l d ls ds ⟨hwf, hs, hf⟩ hl hd hroom
    obtain ⟨t, h, htok, htf, hresp, hcounts⟩ := recordTokens_completes (ws := [lenWord l, distWord d]) (ll := some ls)
      (d := some ds) hf (by simpa using lenSym_lt_llFreq hwf hs hl) (by simpa using distSym_lt_dFreq hwf hs hd)
    exact ⟨t, (exec_wld_of_room hwf hf hl hd hroom).trans h, htok, htf, hresp,
      fun hm => (hcounts hm).imp (· _ rfl) (· _ rfl)⟩

/-! ### The tokens of a block (R65 b, c) -/

/-- A command word after which the unit operates found it operating, and did to the tokens what its word says. -/
theorem acceptCommand_tokens {s t : State} {w : CommandWord} (h : acceptCommand w s = .next t) (htf : t.fault = false) :
    s.fault = false ∧ t.tok = blockTokensStep s.tok w := by
  obtain ⟨⟨hf, -, -, -⟩, i, hd, he⟩ | hstop := acceptCommand_outcome h
  · refine ⟨hf, ?_⟩
    rw [he] at h
    simp only [blockTokensStep, hd]
    cases i with
    | wlit b =>
      obtain ⟨-, hrec⟩ := exec_wlit_completed h htf
      obtain ⟨-, htok, -, -⟩ := recordTokens_frame hrec
      exact htok
    | wld l d =>
      obtain ⟨-, _, _, -, -, hrec⟩ := exec_wld_completed h htf
      obtain ⟨-, htok, -, -⟩ := recordTokens_frame hrec
      exact htok
    | rst => rw [exec_rst_completed h htf]; rfl
    | snap =>
      obtain ⟨hrec, -⟩ := exec_read_completed (.inl rfl) h htf
      rw [hrec]
    | drain =>
      obtain ⟨hrec, -⟩ := exec_read_completed (.inr rfl) h htf
      rw [hrec]
    | hdr level => exact absurd hd (decodeCommand_not_hdr w level)
  · exact absurd (htf.symm.trans (stopped_frame hstop).1) (by simp)

/-- A run of command words after which the unit operates left the tokens of the writes since the last RST. -/
theorem runEvents_commands_tokens {ws : List CommandWord} {s t : State} (h : runEvents (commands ws) s = .next t)
    (htf : t.fault = false) : s.fault = false ∧ t.tok = ws.foldl blockTokensStep s.tok := by
  induction ws generalizing s with
  | nil =>
    obtain rfl := Host.Outcome.next.inj h
    exact ⟨htf, rfl⟩
  | cons w ws ih =>
    obtain ⟨u, hu, h⟩ := runEvents_cons_next h
    obtain ⟨huf, htok⟩ := ih h
    obtain ⟨hf, hutok⟩ := acceptCommand_tokens hu huf
    exact ⟨hf, by rw [htok, hutok, List.foldl_cons]⟩

/-- A sequence of units has one word for each `Lit` and two for each `Len` (10_state.md R23 e). -/
theorem length_entries (es : List Entry) :
    (es.flatMap Entry.words).length = litCount (es.flatMap Entry.words) + 2 * lenCount (es.flatMap Entry.words) := by
  induction es with
  | nil => rfl
  | cons e es ih =>
    simp only [litCount, lenCount] at ih ⊢
    simp only [List.flatMap_cons, List.length_append, List.countP_append, ih]
    cases e with
    | lit b =>
      simp [Entry.words]
      omega
    | pair l d =>
      simp [Entry.words]
      omega

/-- Entries that are 0 from `n` on add nothing to the sum. -/
theorem sum_take_of_zero {table : List Nat} {n : Nat} (h : ∀ i, n ≤ i → i < table.length → table[i]? = some 0) :
    (table.take n).sum = table.sum := by
  have hzero : (table.drop n).sum = 0 := by
    refine List.sum_eq_zero fun v hv => ?_
    obtain ⟨i, hi⟩ := List.mem_iff_getElem?.1 hv
    rw [List.getElem?_drop] at hi
    obtain ⟨hlt, -⟩ := List.getElem?_eq_some_iff.1 hi
    rw [h (n + i) (Nat.le_add_right n i) hlt] at hi
    exact (Option.some.inj hi).symm
  rw [← List.sum_take_add_sum_drop table n, hzero, Nat.add_zero]

/-- The live entries of `LL_FREQ` add up to all of it: the others are 0 (10_state.md R23 d). -/
theorem State.Inv.llFreq_live_sum {s : State} (hi : s.Inv) : (s.llFreq.take s.cfg.numLitlenLive).sum = s.llFreq.sum :=
  sum_take_of_zero fun _ hlo hhi => hi.llFreq_not_live hlo (hi.shaped.1 ▸ hhi)

/-- Settles O49: the store holds the block's tokens (`runEvents_commands_tokens`), DRAIN answers it, and the invariants
(`reachable_inv`) give the number of its words and the sums of the tables SNAP answers. -/
theorem blockReadBack : Obligations.BlockReadBack := by
  intro c ws s hwf h hf
  have hi := reachable_inv hwf h
  obtain ⟨-, htok⟩ := runEvents_commands_tokens h hf
  have hblock : blockTokens ws = s.tok := htok.symm
  rw [hblock]
  refine ⟨exec_drain_of_good hi.config hf, ?_, fun hm => ?_⟩
  · obtain ⟨es, hes, -⟩ := hi.pairing
    rw [hes]
    exact length_entries es
  · obtain ⟨hll, hd⟩ := snap_entries_exist hi.config hi.shaped
    refine ⟨_, _, exec_snap_of_statistical hi.config hf hm hll hd, ?_, ?_⟩
    · rw [hi.llFreq_live_sum, hi.llFreq_sum hm]
    · rw [List.take_of_length_le hi.shaped.2.le, hi.dFreq_sum hm]

end Sys2Proof.Machine
